-- ==== Sys2Proof/Word.lean ====
section
/-! DEFINITION. The word types of the core (00_scope.md R5, R7): plain bit vectors, so that every
BitVec lemma applies. -/

namespace Sys2Proof

/-- A 32-bit value: register, ALU operand, byte address, memory word, instruction word (R7). -/
abbrev Word := BitVec 32

/-- One byte of a memory. -/
abbrev Byte := BitVec 8

/-- A register index; every 5-bit value is valid (10_state.md R21). -/
abbrev RegIdx := BitVec 5

/-- A memory word address: a 32-bit byte address shifted right by 2 (20_memory.md R50). -/
abbrev WordAddr := BitVec 30

end Sys2Proof
end

