-- ==== Sys2Proof/Config.lean ====
section
/-! DEFINITION. What an implementation or a platform fixes (00_scope.md R5), and the free values.
An `opaque` constant has no body: nothing can be proved about its value, so a statement holds
whatever the value is. -/

namespace Sys2Proof

/-- What the model does with a misaligned LH, LHU or LW (20_memory.md R57, 92_eei_decisions.md D7). -/
inductive MisalignedLoadPolicy where
  /-- The default: the low address bits are ignored and the aligned half or word is read. -/
  | ignoreLowBits
  /-- The model gives the misaligned load no meaning. -/
  | refuse
  deriving DecidableEq, Repr

namespace Config

/-- `MisalignedLoadPolicy` of this machine: the spec's default (R57, R276). DESIGN CHOICE (the
spec's D7), unsafe: log 7. -/
def misalignedLoadPolicy : MisalignedLoadPolicy := .ignoreLowBits

/-- `DEBUG_REG`, the index shown on the diagnostic port: "an arbitrary fixed register index"
(40_blocks.md R137, D13). A build-time constant left free: log 8. -/
opaque debugReg : RegIdx

/-- The byte the platform's instruction memory holds at a byte address at which nothing was placed:
`IMem` is a total function, open to the model (20_memory.md R53, D14). Free value: log 4. -/
opaque platformInstrByte : Nat → Byte

/-- The same for the data memory. Free value: log 4. -/
opaque platformDataByte : Nat → Byte

/-- The n-th "arbitrary 32-bit value (a free input)" that a reserved word writes
(46_other_encodings.md R291 to R293). Free value: log 2. -/
opaque freeValue : Nat → Word

end Config

end Sys2Proof
end

