-- ==== Sys2Proof/Syntax.lean ====
section
/-! DEFINITION. The instructions: one constructor per row of spec/opcode_table.json, in the
table's order, holding every operand and also the bits the machine ignores, so that a word and
its instruction determine each other. -/

namespace Sys2Proof

/-- One constructor per row of the opcode table. -/
inductive Instr where
  /-- ADDI rd, rs1, imm (43_op_imm.md R231). -/
  | addi (rd rs1 : RegIdx) (imm : BitVec 12)
  /-- SLLI rd, rs1, shamt (R235); `ignored` is `instr[31:25]`, which is not decoded. -/
  | slli (rd rs1 : RegIdx) (shamt : BitVec 5) (ignored : BitVec 7)
  /-- XORI rd, rs1, imm (R232). -/
  | xori (rd rs1 : RegIdx) (imm : BitVec 12)
  /-- SRLI rd, rs1, shamt (R236). -/
  | srli (rd rs1 : RegIdx) (shamt : BitVec 5)
  /-- SRAI rd, rs1, shamt (R237). -/
  | srai (rd rs1 : RegIdx) (shamt : BitVec 5)
  /-- ORI rd, rs1, imm (R233). -/
  | ori (rd rs1 : RegIdx) (imm : BitVec 12)
  /-- ANDI rd, rs1, imm (R234). -/
  | andi (rd rs1 : RegIdx) (imm : BitVec 12)
  /-- JAL rd, offset (44_jal.md R260); `offset` is the 21-bit J immediate, whose bit 0 is 0. -/
  | jal (rd : RegIdx) (offset : BitVec 21)
  /-- LB rd, imm(rs1) (45_load.md R271). -/
  | lb (rd rs1 : RegIdx) (imm : BitVec 12)
  /-- LH rd, imm(rs1) (R272). -/
  | lh (rd rs1 : RegIdx) (imm : BitVec 12)
  /-- LW rd, imm(rs1) (R273). -/
  | lw (rd rs1 : RegIdx) (imm : BitVec 12)
  /-- LBU rd, imm(rs1) (R274). -/
  | lbu (rd rs1 : RegIdx) (imm : BitVec 12)
  /-- LHU rd, imm(rs1) (R275). -/
  | lhu (rd rs1 : RegIdx) (imm : BitVec 12)
  /-- OP-IMM with `funct3 = 010` (46_other_encodings.md R291). -/
  | reservedOpImm010 (rd rs1 : RegIdx) (imm : BitVec 12)
  /-- OP-IMM with `funct3 = 011` (R291). -/
  | reservedOpImm011 (rd rs1 : RegIdx) (imm : BitVec 12)
  /-- OP-IMM with `funct3 = 101` and a `funct7` that is neither SRLI's nor SRAI's (R292). -/
  | reservedShiftRightType (rd rs1 : RegIdx) (shamt : BitVec 5) (funct7 : BitVec 7)
  /-- LOAD with `funct3 = 011` (R293). -/
  | reservedLoad011 (rd rs1 : RegIdx) (imm : BitVec 12)
  /-- LOAD with `funct3 = 110` (R293). -/
  | reservedLoad110 (rd rs1 : RegIdx) (imm : BitVec 12)
  /-- LOAD with `funct3 = 111` (R293). -/
  | reservedLoad111 (rd rs1 : RegIdx) (imm : BitVec 12)
  /-- Any word whose opcode is none of the three recognised ones (R290); `rest` is `instr[31:7]`. -/
  | unrecognised (opcode : BitVec 7) (rest : BitVec 25)
  deriving DecidableEq, Repr

end Sys2Proof
end

