-- ==== Sys2Proof/Decode.lean ====
section
/-! DEFINITION. Decoding and encoding (30_encoding.md, 41_decoder.md R164). `decode` answers for
every word: no word is refused (R174). The opcode numbers, the J layout and the place of the shift
amount are the spec's from general knowledge: UNVERIFIED, log 9, 10, 11. -/

namespace Sys2Proof

/-! ### Fixed fields (30_encoding.md R81) -/

/-- `instr[6:0]`. -/
def fieldOpcode (w : Word) : BitVec 7 := w.extractLsb' 0 7

/-- `instr[11:7]`. -/
def fieldRd (w : Word) : RegIdx := w.extractLsb' 7 5

/-- `instr[14:12]`. -/
def fieldFunct3 (w : Word) : BitVec 3 := w.extractLsb' 12 3

/-- `instr[19:15]`. -/
def fieldRs1 (w : Word) : RegIdx := w.extractLsb' 15 5

/-- `instr[24:20]`, which is also the shift amount (R86). -/
def fieldRs2 (w : Word) : RegIdx := w.extractLsb' 20 5

/-- `instr[31:25]`, the right-shift-type field. -/
def fieldFunct7 (w : Word) : BitVec 7 := w.extractLsb' 25 7

/-- `instr[31:20]`, the I-type immediate field (R82). -/
def fieldImmI (w : Word) : BitVec 12 := w.extractLsb' 20 12

/-- The 21-bit J-type immediate (R83, R87):
`instr[31]`, `instr[19:12]`, `instr[20]`, `instr[30:21]`, then bit 0 = 0. -/
def fieldImmJ (w : Word) : BitVec 21 :=
  w.extractLsb' 31 1 ++ w.extractLsb' 12 8 ++ w.extractLsb' 20 1 ++ w.extractLsb' 21 10 ++ 0#1

/-! ### Opcodes (R89) -/

abbrev opcodeLoad : BitVec 7 := 0b0000011#7

abbrev opcodeOpImm : BitVec 7 := 0b0010011#7

abbrev opcodeJal : BitVec 7 := 0b1101111#7

/-- The three opcode values the decoder recognises; all seven bits take part (R89). -/
def isRecognisedOpcode (op : BitVec 7) : Bool :=
  op == opcodeLoad || op == opcodeOpImm || op == opcodeJal

/-! ### The decoder -/

/-- OP-IMM: dispatch on `funct3`, and for `101` on `funct7` (R90, R91, R96). -/
def decodeOpImm (w : Word) : Instr :=
  if fieldFunct3 w = 0b000#3 then .addi (fieldRd w) (fieldRs1 w) (fieldImmI w)
  else if fieldFunct3 w = 0b001#3 then
    .slli (fieldRd w) (fieldRs1 w) (fieldRs2 w) (fieldFunct7 w)
  else if fieldFunct3 w = 0b010#3 then
    .reservedOpImm010 (fieldRd w) (fieldRs1 w) (fieldImmI w)
  else if fieldFunct3 w = 0b011#3 then
    .reservedOpImm011 (fieldRd w) (fieldRs1 w) (fieldImmI w)
  else if fieldFunct3 w = 0b100#3 then .xori (fieldRd w) (fieldRs1 w) (fieldImmI w)
  else if fieldFunct3 w = 0b101#3 then
    if fieldFunct7 w = 0b0000000#7 then .srli (fieldRd w) (fieldRs1 w) (fieldRs2 w)
    else if fieldFunct7 w = 0b0100000#7 then .srai (fieldRd w) (fieldRs1 w) (fieldRs2 w)
    else .reservedShiftRightType (fieldRd w) (fieldRs1 w) (fieldRs2 w) (fieldFunct7 w)
  else if fieldFunct3 w = 0b110#3 then .ori (fieldRd w) (fieldRs1 w) (fieldImmI w)
  else .andi (fieldRd w) (fieldRs1 w) (fieldImmI w)

/-- LOAD: dispatch on `funct3` (R92, R96). -/
def decodeLoad (w : Word) : Instr :=
  if fieldFunct3 w = 0b000#3 then .lb (fieldRd w) (fieldRs1 w) (fieldImmI w)
  else if fieldFunct3 w = 0b001#3 then .lh (fieldRd w) (fieldRs1 w) (fieldImmI w)
  else if fieldFunct3 w = 0b010#3 then .lw (fieldRd w) (fieldRs1 w) (fieldImmI w)
  else if fieldFunct3 w = 0b011#3 then
    .reservedLoad011 (fieldRd w) (fieldRs1 w) (fieldImmI w)
  else if fieldFunct3 w = 0b100#3 then .lbu (fieldRd w) (fieldRs1 w) (fieldImmI w)
  else if fieldFunct3 w = 0b101#3 then .lhu (fieldRd w) (fieldRs1 w) (fieldImmI w)
  else if fieldFunct3 w = 0b110#3 then
    .reservedLoad110 (fieldRd w) (fieldRs1 w) (fieldImmI w)
  else .reservedLoad111 (fieldRd w) (fieldRs1 w) (fieldImmI w)

/-- The instruction a word stands for: first on the opcode, then inside its class (R89, R93, R94;
41_decoder.md R164). -/
def decode (w : Word) : Instr :=
  if fieldOpcode w = opcodeOpImm then decodeOpImm w
  else if fieldOpcode w = opcodeJal then .jal (fieldRd w) (fieldImmJ w)
  else if fieldOpcode w = opcodeLoad then decodeLoad w
  else .unrecognised (fieldOpcode w) (w.extractLsb' 7 25)

/-! ### The encoder -/

/-- The I-type layout (R82), `instr[31]` first. -/
def wordI (imm : BitVec 12) (rs1 : RegIdx) (funct3 : BitVec 3) (rd : RegIdx) (op : BitVec 7) :
    Word :=
  imm ++ rs1 ++ funct3 ++ rd ++ op

/-- The shift layout of the I-type (R82): the immediate field is `funct7` and `shamt`. -/
def wordShift (funct7 : BitVec 7) (shamt : BitVec 5) (rs1 : RegIdx) (funct3 : BitVec 3)
    (rd : RegIdx) : Word :=
  wordI (funct7 ++ shamt) rs1 funct3 rd opcodeOpImm

/-- The J-type layout (R83): `imm[20]`, `imm[10:1]`, `imm[11]`, `imm[19:12]`, `rd`, `opcode`. -/
def wordJ (offset : BitVec 21) (rd : RegIdx) (op : BitVec 7) : Word :=
  offset.extractLsb' 20 1 ++ offset.extractLsb' 1 10 ++ offset.extractLsb' 11 1 ++
    offset.extractLsb' 12 8 ++ rd ++ op

/-- The word of an instruction, from the encoding tables (R82, R83, R90 to R93, R100). -/
def encode : Instr → Word
  | .addi rd rs1 imm => wordI imm rs1 0b000#3 rd opcodeOpImm
  | .slli rd rs1 shamt ignored => wordShift ignored shamt rs1 0b001#3 rd
  | .xori rd rs1 imm => wordI imm rs1 0b100#3 rd opcodeOpImm
  | .srli rd rs1 shamt => wordShift 0b0000000#7 shamt rs1 0b101#3 rd
  | .srai rd rs1 shamt => wordShift 0b0100000#7 shamt rs1 0b101#3 rd
  | .ori rd rs1 imm => wordI imm rs1 0b110#3 rd opcodeOpImm
  | .andi rd rs1 imm => wordI imm rs1 0b111#3 rd opcodeOpImm
  | .jal rd offset => wordJ offset rd opcodeJal
  | .lb rd rs1 imm => wordI imm rs1 0b000#3 rd opcodeLoad
  | .lh rd rs1 imm => wordI imm rs1 0b001#3 rd opcodeLoad
  | .lw rd rs1 imm => wordI imm rs1 0b010#3 rd opcodeLoad
  | .lbu rd rs1 imm => wordI imm rs1 0b100#3 rd opcodeLoad
  | .lhu rd rs1 imm => wordI imm rs1 0b101#3 rd opcodeLoad
  | .reservedOpImm010 rd rs1 imm => wordI imm rs1 0b010#3 rd opcodeOpImm
  | .reservedOpImm011 rd rs1 imm => wordI imm rs1 0b011#3 rd opcodeOpImm
  | .reservedShiftRightType rd rs1 shamt funct7 => wordShift funct7 shamt rs1 0b101#3 rd
  | .reservedLoad011 rd rs1 imm => wordI imm rs1 0b011#3 rd opcodeLoad
  | .reservedLoad110 rd rs1 imm => wordI imm rs1 0b110#3 rd opcodeLoad
  | .reservedLoad111 rd rs1 imm => wordI imm rs1 0b111#3 rd opcodeLoad
  | .unrecognised opcode rest => rest ++ opcode

/-- `encode_itype` of R88, for an integer immediate. -/
def encodeItype (x : Int) (rs1 : RegIdx) (funct3 : BitVec 3) (rd : RegIdx) (op : BitVec 7) : Word :=
  wordI (BitVec.ofInt 12 x) rs1 funct3 rd op

/-- `encode_jtype` of R88, for an integer offset. -/
def encodeJtype (x : Int) (rd : RegIdx) (op : BitVec 7) : Word :=
  wordJ (BitVec.ofInt 21 x) rd op

/-! ### Words as bytes (20_memory.md R69: little-endian, log 5) -/

/-- Four bytes, the one at the lowest address first, as a word. -/
def wordOfBytes (b0 b1 b2 b3 : Byte) : Word := b3 ++ b2 ++ b1 ++ b0

/-- Byte `k` (0 to 3) of a word. -/
def byteOfWord (w : Word) (k : Nat) : Byte := w.extractLsb' (8 * k) 8

/-- Why a byte sequence holds no instruction. -/
inductive DecodeError where
  /-- Fewer than the four bytes of an instruction (30_encoding.md R80). -/
  | truncated
  deriving DecidableEq, Repr

/-- The instruction at the head of a byte sequence, and the bytes after it. -/
def decodeBytes : List Byte → Except DecodeError (Instr × List Byte)
  | b0 :: b1 :: b2 :: b3 :: rest => .ok (decode (wordOfBytes b0 b1 b2 b3), rest)
  | _ => .error .truncated

/-- The bytes of a word in memory order. -/
def bytesOfWord (w : Word) : List Byte :=
  [byteOfWord w 0, byteOfWord w 1, byteOfWord w 2, byteOfWord w 3]

/-- The instruction word whose bits, numbered as spec/opcode_table.json numbers them, are `w`;
the bits from `nbits` on are 0. -/
def tableWord (nbits w : Nat) : Word := BitVec.ofNat 32 (w % 2 ^ nbits)

/-- What the decoder reads from an instruction whose table bits are `w`. -/
def decodeTableWord (nbits w : Nat) : Option Instr :=
  match decodeBytes (bytesOfWord (tableWord nbits w)) with
  | .ok (i, _) => some i
  | .error _ => none

/-! ### The opcode table as data (30_encoding.md R100) -/

/-- One row: the table's mnemonic, `match` and `mask`. -/
structure OpcodeRow where
  mnemonic : String
  bits : Word
  mask : Word
  deriving DecidableEq, Repr

/-- The rows in priority order. -/
def opcodeRows : List OpcodeRow := [
  ⟨"ADDI", 0x00000013#32, 0x0000707f#32⟩,
  ⟨"SLLI", 0x00001013#32, 0x0000707f#32⟩,
  ⟨"XORI", 0x00004013#32, 0x0000707f#32⟩,
  ⟨"SRLI", 0x00005013#32, 0xfe00707f#32⟩,
  ⟨"SRAI", 0x40005013#32, 0xfe00707f#32⟩,
  ⟨"ORI", 0x00006013#32, 0x0000707f#32⟩,
  ⟨"ANDI", 0x00007013#32, 0x0000707f#32⟩,
  ⟨"JAL", 0x0000006f#32, 0x0000007f#32⟩,
  ⟨"LB", 0x00000003#32, 0x0000707f#32⟩,
  ⟨"LH", 0x00001003#32, 0x0000707f#32⟩,
  ⟨"LW", 0x00002003#32, 0x0000707f#32⟩,
  ⟨"LBU", 0x00004003#32, 0x0000707f#32⟩,
  ⟨"LHU", 0x00005003#32, 0x0000707f#32⟩,
  ⟨"reserved.op-imm.funct3-010", 0x00002013#32, 0x0000707f#32⟩,
  ⟨"reserved.op-imm.funct3-011", 0x00003013#32, 0x0000707f#32⟩,
  ⟨"reserved.op-imm.shift-right-type", 0x00005013#32, 0x0000707f#32⟩,
  ⟨"reserved.load.funct3-011", 0x00003003#32, 0x0000707f#32⟩,
  ⟨"reserved.load.funct3-110", 0x00006003#32, 0x0000707f#32⟩,
  ⟨"reserved.load.funct3-111", 0x00007003#32, 0x0000707f#32⟩,
  ⟨"unrecognised", 0x00000000#32, 0x00000000#32⟩]

/-- The mnemonic of the first row with `w & mask = match` (R100). -/
def firstMatch (w : Word) : List OpcodeRow → Option String
  | [] => none
  | row :: rows => if w &&& row.mask = row.bits then some row.mnemonic else firstMatch w rows

/-- The row's mnemonic in spec/opcode_table.json. -/
def Instr.mnemonic : Instr → String
  | .addi _ _ _ => "ADDI"
  | .slli _ _ _ _ => "SLLI"
  | .xori _ _ _ => "XORI"
  | .srli _ _ _ => "SRLI"
  | .srai _ _ _ => "SRAI"
  | .ori _ _ _ => "ORI"
  | .andi _ _ _ => "ANDI"
  | .jal _ _ => "JAL"
  | .lb _ _ _ => "LB"
  | .lh _ _ _ => "LH"
  | .lw _ _ _ => "LW"
  | .lbu _ _ _ => "LBU"
  | .lhu _ _ _ => "LHU"
  | .reservedOpImm010 _ _ _ => "reserved.op-imm.funct3-010"
  | .reservedOpImm011 _ _ _ => "reserved.op-imm.funct3-011"
  | .reservedShiftRightType _ _ _ _ => "reserved.op-imm.shift-right-type"
  | .reservedLoad011 _ _ _ => "reserved.load.funct3-011"
  | .reservedLoad110 _ _ _ => "reserved.load.funct3-110"
  | .reservedLoad111 _ _ _ => "reserved.load.funct3-111"
  | .unrecognised _ _ => "unrecognised"

/-! ### Assembly (30_encoding.md R98, R99; UNVERIFIED, log 24) -/

/-- A register's name in assembly. -/
def regName (r : RegIdx) : String := "x" ++ toString r.toNat

/-- `OP rd, rs1, imm` with a signed decimal immediate. -/
def asmImm (name : String) (rd rs1 : RegIdx) (imm : Int) : String :=
  name ++ " " ++ regName rd ++ ", " ++ regName rs1 ++ ", " ++ toString imm

/-- `OP rd, imm(rs1)`. -/
def asmLoad (name : String) (rd rs1 : RegIdx) (imm : BitVec 12) : String :=
  name ++ " " ++ regName rd ++ ", " ++ toString imm.toInt ++ "(" ++ regName rs1 ++ ")"

/-- The assembly of the thirteen instructions; any other word has none (R98). -/
def assembly : Instr → Option String
  | .addi rd rs1 imm => some (asmImm "ADDI" rd rs1 imm.toInt)
  | .slli rd rs1 shamt _ => some (asmImm "SLLI" rd rs1 shamt.toNat)
  | .xori rd rs1 imm => some (asmImm "XORI" rd rs1 imm.toInt)
  | .srli rd rs1 shamt => some (asmImm "SRLI" rd rs1 shamt.toNat)
  | .srai rd rs1 shamt => some (asmImm "SRAI" rd rs1 shamt.toNat)
  | .ori rd rs1 imm => some (asmImm "ORI" rd rs1 imm.toInt)
  | .andi rd rs1 imm => some (asmImm "ANDI" rd rs1 imm.toInt)
  | .jal rd offset => some ("JAL " ++ regName rd ++ ", " ++ toString offset.toInt)
  | .lb rd rs1 imm => some (asmLoad "LB" rd rs1 imm)
  | .lh rd rs1 imm => some (asmLoad "LH" rd rs1 imm)
  | .lw rd rs1 imm => some (asmLoad "LW" rd rs1 imm)
  | .lbu rd rs1 imm => some (asmLoad "LBU" rd rs1 imm)
  | .lhu rd rs1 imm => some (asmLoad "LHU" rd rs1 imm)
  | .reservedOpImm010 _ _ _ => none
  | .reservedOpImm011 _ _ _ => none
  | .reservedShiftRightType _ _ _ _ => none
  | .reservedLoad011 _ _ _ => none
  | .reservedLoad110 _ _ _ => none
  | .reservedLoad111 _ _ _ => none
  | .unrecognised _ _ => none

/-- `NOP` is `ADDI x0, x0, 0` (R99). -/
def pseudoNop : Instr := .addi 0 0 0

/-- `J offset` is `JAL x0, offset` (R99). -/
def pseudoJ (offset : BitVec 21) : Instr := .jal 0 offset

/-- `LI rd, imm` is `ADDI rd, x0, imm` (R99). -/
def pseudoLi (rd : RegIdx) (imm : BitVec 12) : Instr := .addi rd 0 imm

/-- `MV rd, rs` is `ADDI rd, rs, 0` (R99). -/
def pseudoMv (rd rs : RegIdx) : Instr := .addi rd rs 0

/-- `NOT rd, rs` is `XORI rd, rs, -1` (R99). -/
def pseudoNot (rd rs : RegIdx) : Instr := .xori rd rs (-1)

end Sys2Proof
end

