-- ==== Sys2Proof/WellFormed.lean ====
section
/-! DEFINITION. Which terms of `Instr` stand for a word: the operand values the encodings of
30_encoding.md cannot hold are ruled out here. Every other field is bounded by its type. -/

namespace Sys2Proof

/-- A JAL offset is even (R87), a reserved shift type is neither SRLI's nor SRAI's (R91, R96), an
unrecognised word has none of the three recognised opcodes (R94). -/
def Instr.wellFormed : Instr → Bool
  | .addi _ _ _ => true
  | .slli _ _ _ _ => true
  | .xori _ _ _ => true
  | .srli _ _ _ => true
  | .srai _ _ _ => true
  | .ori _ _ _ => true
  | .andi _ _ _ => true
  | .jal _ offset => !offset.getLsbD 0
  | .lb _ _ _ => true
  | .lh _ _ _ => true
  | .lw _ _ _ => true
  | .lbu _ _ _ => true
  | .lhu _ _ _ => true
  | .reservedOpImm010 _ _ _ => true
  | .reservedOpImm011 _ _ _ => true
  | .reservedShiftRightType _ _ _ funct7 => funct7 != 0b0000000#7 && funct7 != 0b0100000#7
  | .reservedLoad011 _ _ _ => true
  | .reservedLoad110 _ _ _ => true
  | .reservedLoad111 _ _ _ => true
  | .unrecognised opcode _ => !isRecognisedOpcode opcode

end Sys2Proof
end

