-- ==== Sys2Proof/Machine/State.lean ====
section
/-! DEFINITION. The state of the machine (10_state.md R20), the reasons a step can stop, and the
state after reset (70_reset_and_hazards.md R330). -/

namespace Sys2Proof.Machine

/-- A memory: the bytes the platform is known to hold, as (byte address, byte) cells in canonical
form (`Memory.wf`): addresses strictly rising and below 2^32. An unlisted address has no listed
byte, and reads as the platform's byte (`Memory.byteAt`; log 4). -/
abbrev Memory := List Host.Cell

/-- The state: the registers of R20, the two external memories the step reads (R50, D14), and one
field of the model's own. -/
structure State where
  /-- `x[1]` to `x[31]`; `x[i]` stands at place `i - 1`. Register 0 holds nothing (R20, R22). -/
  regs : Vector Word 31
  /-- The program counter `pc`, the document's `next_fetch_address` (R28). -/
  pc : Word
  /-- Its companion `pc_inc`, the document's `incremented` (R29). -/
  pcInc : Word
  /-- The instruction memory, outside the core (20_memory.md R50, R51). -/
  imem : Memory
  /-- The data memory, outside the core (20_memory.md R50, R52). -/
  dmem : Memory
  /-- The MODEL's own field: how many free values have been used (log 2). -/
  freeCount : Nat
  deriving DecidableEq, Repr

/-- The hardware has no fault: "there are no exceptions, no recoverable I/O errors, and no retries"
(60_exceptions.md R300, R314). So no constructor: nothing raises one, and there is nothing to call
safe or unsafe. -/
inductive Fault
  deriving DecidableEq, Repr

/-- Why the model gives a step no meaning. -/
inductive Refusal where
  /-- An arm of `exec` without a meaning; no arm raises it now. Safe. -/
  | notModelled (mnemonic : String)
  /-- A misaligned LH, LHU or LW under `MisalignedLoadPolicy.refuse` (45_load.md R276), raised by the
  shared operation `loadInto`. Safe. Never raised under this machine's policy. -/
  | misalignedLoad
  deriving DecidableEq, Repr

/-- The state after reset (R40, R41, R330): `pc` 0, `pc_inc` 4, every register 0. No byte of the two
memories is listed: their contents are the platform's (log 4, log 19). -/
def State.reset : State where
  regs := Vector.replicate 31 0#32
  pc := 0#32
  pcInc := 4#32
  imem := []
  dmem := []
  freeCount := 0

end Sys2Proof.Machine
end

