-- ==== Sys2Proof/Machine/Alu.lean ====
section
/-! DEFINITION. The ArithmeticLogicUnit (40_blocks.md R120 to R132): a pure function of an
operation and two operands, with no flag and no state. -/

namespace Sys2Proof.Machine

/-- The eight operations; an abstract enumeration with no numeric encoding (R132, D12, log 21). -/
inductive AluOp where
  | add
  | sub
  | and
  | or
  | xor
  | sll
  | srl
  | sra
  deriving DecidableEq, Repr

/-- The shift amount: the low 5 bits of the first operand (R129). -/
def shiftAmount (a : Word) : Nat := (a.extractLsb' 0 5).toNat

/-- The ALU (R121 to R128). The shifts shift `b` by `a`. -/
def alu (op : AluOp) (a b : Word) : Word :=
  match op with
  | .add => a + b
  | .sub => a - b
  | .and => a &&& b
  | .or => a ||| b
  | .xor => a ^^^ b
  | .sll => b <<< shiftAmount a
  | .srl => b >>> shiftAmount a
  | .sra => b.sshiftRight (shiftAmount a)

end Sys2Proof.Machine
end

