-- ==== Sys2Proof/Machine/Flags.lean ====
section
/-! DEFINITION. There are no flags, condition codes or predicate registers (10_state.md R34): the
ALU returns a 32-bit result "and nothing else", and no instruction reads or writes a flag. So this
layer of the model is empty, by the spec's own words. -/
end

