-- ==== Sys2Proof/Machine/Ops.lean ====
section
/-! DEFINITION. The named operations over memory, registers and the program counter, and what the
environment can do to a core. There is no exception to take and none to return from: the spec has
no trap entry and no trap return (60_exceptions.md R303, R304), so no operation for either. -/

namespace Sys2Proof.Machine

/-! ### A memory as a list of cells -/

/-- The addresses are at least `lo`, strictly rising, and below 2^32. -/
def Memory.risingFrom (lo : Nat) : Memory → Bool
  | [] => true
  | c :: m => decide (lo ≤ c.1) && decide (c.1 < 2 ^ 32) && Memory.risingFrom (c.1 + 1) m

/-- The canonical form of a memory. -/
def Memory.wf (m : Memory) : Bool := Memory.risingFrom 0 m

/-- The byte listed at an address. -/
def Memory.lookup (a : Nat) : Memory → Option Byte
  | [] => none
  | c :: m => if c.1 = a then some c.2 else Memory.lookup a m

/-- List a byte at an address, in its place. -/
def Memory.write (a : Nat) (b : Byte) : Memory → Memory
  | [] => [(a, b)]
  | c :: m =>
    if a < c.1 then (a, b) :: c :: m
    else if a = c.1 then (a, b) :: m
    else c :: Memory.write a b m

/-- What a byte address reads as: the listed byte, else the platform's (20_memory.md R53). -/
def Memory.byteAt (platform : Nat → Byte) (m : Memory) (a : Nat) : Byte :=
  (Memory.lookup a m).getD (platform a)

/-- The 32-bit word at a word address, little-endian (R55, R69). -/
def Memory.wordAt (platform : Nat → Byte) (m : Memory) (wa : WordAddr) : Word :=
  wordOfBytes (Memory.byteAt platform m (4 * wa.toNat))
    (Memory.byteAt platform m (4 * wa.toNat + 1))
    (Memory.byteAt platform m (4 * wa.toNat + 2))
    (Memory.byteAt platform m (4 * wa.toNat + 3))

/-- List the four bytes of a word at a word address. -/
def Memory.placeWord (wa : WordAddr) (w : Word) (m : Memory) : Memory :=
  Memory.write (4 * wa.toNat + 3) (byteOfWord w 3)
    (Memory.write (4 * wa.toNat + 2) (byteOfWord w 2)
      (Memory.write (4 * wa.toNat + 1) (byteOfWord w 1)
        (Memory.write (4 * wa.toNat) (byteOfWord w 0) m)))

/-! ### The two memories of a state -/

/-- The byte of the instruction memory at a byte address. -/
def State.instrByte (s : State) (a : Nat) : Byte :=
  Memory.byteAt Config.platformInstrByte s.imem a

/-- The byte of the data memory at a byte address. -/
def State.dataByte (s : State) (a : Nat) : Byte :=
  Memory.byteAt Config.platformDataByte s.dmem a

/-- `IMem(w)` (20_memory.md R51). -/
def State.instrWord (s : State) (wa : WordAddr) : Word :=
  Memory.wordAt Config.platformInstrByte s.imem wa

/-- `DMem(w)` (20_memory.md R52). -/
def State.dataWord (s : State) (wa : WordAddr) : Word :=
  Memory.wordAt Config.platformDataByte s.dmem wa

/-- The word address of a byte address, `addr[31:2]` (R50). -/
def wordAddr (addr : Word) : WordAddr := addr.extractLsb' 2 30

/-- The instruction word of this tick, `IMem(pc[31:2])` (R51; 42_cpu_datapath.md R202). -/
def State.fetchWord (s : State) : Word := s.instrWord (wordAddr s.pc)

/-! ### Registers -/

/-- The place of register `i` among the 31 that hold something. -/
theorem regPlace_lt (i : RegIdx) : i.toNat - 1 < 31 := by
  have := i.isLt
  omega

/-- `x[i]` (00_scope.md R8): 0 for register 0, else the register's content (10_state.md R22). -/
def State.readReg (s : State) (i : RegIdx) : Word :=
  if i = 0#5 then 0#32 else s.regs[i.toNat - 1]'(regPlace_lt i)

/-- `x[i] <- v`: a write to register 0 is dropped (10_state.md R23). -/
def State.writeReg (s : State) (i : RegIdx) (v : Word) : State :=
  if i = 0#5 then s else { s with regs := s.regs.set (i.toNat - 1) v (regPlace_lt i) }

/-! ### The program counter block (40_blocks.md R139) -/

/-- A tick of the program counter without a load: `pc` takes the previous `pc_inc`. -/
def State.advance (s : State) : State :=
  { s with pc := s.pcInc, pcInc := s.pcInc + 4#32 }

/-- A tick of the program counter with a load. -/
def State.jumpTo (s : State) (target : Word) : State :=
  { s with pc := target, pcInc := target + 4#32 }

/-! ### Free values (log 2) -/

/-- The next free value: an "arbitrary 32-bit value" (46_other_encodings.md R291). -/
def State.nextFree (s : State) : Word := Config.freeValue s.freeCount

/-- One free value has been used. -/
def State.useFree (s : State) : State := { s with freeCount := s.freeCount + 1 }

/-! ### What the environment can do (70_reset_and_hazards.md R341) -/

/-- Reset of a running core (R330): its registers take their reset values, the memories stay. The
count of free values goes on, so that no free value is used twice (log 23). -/
def State.assertReset (s : State) : State :=
  { State.reset with imem := s.imem, dmem := s.dmem, freeCount := s.freeCount }

/-- The platform holds `w` at word `wa` of the instruction memory. -/
def State.placeInstrWord (s : State) (wa : WordAddr) (w : Word) : State :=
  { s with imem := Memory.placeWord wa w s.imem }

/-- The platform holds `w` at word `wa` of the data memory. -/
def State.placeDataWord (s : State) (wa : WordAddr) (w : Word) : State :=
  { s with dmem := Memory.placeWord wa w s.dmem }

end Sys2Proof.Machine
end

