-- ==== Sys2Proof/Machine/Operands.lean ====
section
/-! DEFINITION. The operand forms (30_encoding.md R101): immediates, the shift amount, the one
addressing mode, and the load-value extractor with the load primitive `MemRead`. -/

namespace Sys2Proof.Machine

/-- `imm_i = sext_12(instr[31:20])` (30_encoding.md R85). -/
def immI (imm : BitVec 12) : Word := imm.signExtend 32

/-- `imm_j = sext_21(…)` (R87). -/
def immJ (offset : BitVec 21) : Word := offset.signExtend 32

/-- The shift operand, `zext_5(shamt)` (R86). -/
def shiftOperand (shamt : BitVec 5) : Word := shamt.setWidth 32

/-- The width of a load. -/
inductive Width where
  | byte
  | half
  | word
  deriving DecidableEq, Repr

/-- `sext_N` or `zext_N` of a value to 32 bits (00_scope.md R7). -/
def extendTo32 {n : Nat} (signed : Bool) (v : BitVec n) : Word :=
  if signed then v.signExtend 32 else v.setWidth 32

/-- The half of a word selected by bit 1 of the byte address (40_blocks.md R144). -/
def selectHalf (raw addr : Word) : BitVec 16 :=
  if addr.getLsbD 1 then raw.extractLsb' 16 16 else raw.extractLsb' 0 16

/-- The byte of a word selected by bits 1 and 0 of the byte address (R145; the lane order is
20_memory.md R55, UNVERIFIED, log 6). -/
def selectByte (raw addr : Word) : Byte :=
  byteOfWord raw (addr.extractLsb' 0 2).toNat

/-- The LoadValueExtractor (R142 to R146). -/
def extract (raw addr : Word) (width : Width) (signed : Bool) : Word :=
  match width with
  | .word => raw
  | .half => extendTo32 signed (selectHalf raw addr)
  | .byte => extendTo32 signed (selectByte raw addr)

/-- `MemRead(addr, n, signed)` (20_memory.md R54). -/
def State.memRead (s : State) (addr : Word) (width : Width) (signed : Bool) : Word :=
  extract (s.dataWord (wordAddr addr)) addr width signed

/-- The effective address of a load, `x[rs1] + imm_i` by the ALU (45_load.md R270). -/
def State.effectiveAddr (s : State) (rs1 : RegIdx) (imm : BitVec 12) : Word :=
  alu .add (immI imm) (s.readReg rs1)

/-- An address misaligned for the width (R276). A byte is never misaligned. -/
def misaligned (width : Width) (addr : Word) : Bool :=
  match width with
  | .byte => false
  | .half => addr.getLsbD 0
  | .word => addr.getLsbD 0 || addr.getLsbD 1

end Sys2Proof.Machine
end

