-- ==== Sys2Proof/Machine/Jal.lean ====
section
/-! DEFINITION. Jump and link, the only control transfer (44_jal.md R260 to R262). -/

namespace Sys2Proof.Machine

/-- JAL (R260): the link value is the pre-tick `pc_inc`, the target is `pc + imm_j` by the ALU. -/
def execJal (rd : RegIdx) (offset : BitVec 21) (s : State) : Host.Outcome State Fault Refusal :=
  .next ((s.writeReg rd s.pcInc).jumpTo (alu .add (immJ offset) s.pc))

end Sys2Proof.Machine
end

