-- ==== Sys2Proof/Machine/Load.lean ====
section
/-! DEFINITION. The loads (45_load.md R270 to R276). -/

namespace Sys2Proof.Machine

/-- The family's one shape (R270): `x[rd] <- MemRead(x[rs1] + imm_i, width, signed)`, then `pc`
advances. Under the policy `refuse` a misaligned access has no meaning (R276). -/
def loadInto (policy : MisalignedLoadPolicy) (width : Width) (signed : Bool) (rd rs1 : RegIdx)
    (imm : BitVec 12) (s : State) : Host.Outcome State Fault Refusal :=
  if policy = .refuse ∧ misaligned width (s.effectiveAddr rs1 imm) = true then
    .refused .misalignedLoad
  else
    .next ((s.writeReg rd (s.memRead (s.effectiveAddr rs1 imm) width signed)).advance)

/-- LB (R271). -/
def execLb (rd rs1 : RegIdx) (imm : BitVec 12) (s : State) : Host.Outcome State Fault Refusal :=
  loadInto Config.misalignedLoadPolicy .byte true rd rs1 imm s

/-- LH (R272). -/
def execLh (rd rs1 : RegIdx) (imm : BitVec 12) (s : State) : Host.Outcome State Fault Refusal :=
  loadInto Config.misalignedLoadPolicy .half true rd rs1 imm s

/-- LW (R273). -/
def execLw (rd rs1 : RegIdx) (imm : BitVec 12) (s : State) : Host.Outcome State Fault Refusal :=
  loadInto Config.misalignedLoadPolicy .word true rd rs1 imm s

/-- LBU (R274). -/
def execLbu (rd rs1 : RegIdx) (imm : BitVec 12) (s : State) : Host.Outcome State Fault Refusal :=
  loadInto Config.misalignedLoadPolicy .byte false rd rs1 imm s

/-- LHU (R275). -/
def execLhu (rd rs1 : RegIdx) (imm : BitVec 12) (s : State) : Host.Outcome State Fault Refusal :=
  loadInto Config.misalignedLoadPolicy .half false rd rs1 imm s

end Sys2Proof.Machine
end

