-- ==== Sys2Proof/Machine/OpImm.lean ====
section
/-! DEFINITION. The register-immediate family (43_op_imm.md R230 to R237). -/

namespace Sys2Proof.Machine

/-- The family's one shape (R230): `x[rd] <- ALU(op, operand, x[rs1])`, then `pc` advances. The
source is read before the write. -/
def opImm (op : AluOp) (operand : Word) (rd rs1 : RegIdx) (s : State) :
    Host.Outcome State Fault Refusal :=
  .next ((s.writeReg rd (alu op operand (s.readReg rs1))).advance)

/-- ADDI (R231). -/
def execAddi (rd rs1 : RegIdx) (imm : BitVec 12) (s : State) : Host.Outcome State Fault Refusal :=
  opImm .add (immI imm) rd rs1 s

/-- XORI (R232). -/
def execXori (rd rs1 : RegIdx) (imm : BitVec 12) (s : State) : Host.Outcome State Fault Refusal :=
  opImm .xor (immI imm) rd rs1 s

/-- ORI (R233). -/
def execOri (rd rs1 : RegIdx) (imm : BitVec 12) (s : State) : Host.Outcome State Fault Refusal :=
  opImm .or (immI imm) rd rs1 s

/-- ANDI (R234). -/
def execAndi (rd rs1 : RegIdx) (imm : BitVec 12) (s : State) : Host.Outcome State Fault Refusal :=
  opImm .and (immI imm) rd rs1 s

/-- SLLI (R235): `instr[31:25]` is not looked at (UNVERIFIED, the spec's D11, log 12). -/
def execSlli (rd rs1 : RegIdx) (shamt : BitVec 5) (_ignored : BitVec 7) (s : State) :
    Host.Outcome State Fault Refusal :=
  opImm .sll (shiftOperand shamt) rd rs1 s

/-- SRLI (R236). -/
def execSrli (rd rs1 : RegIdx) (shamt : BitVec 5) (s : State) : Host.Outcome State Fault Refusal :=
  opImm .srl (shiftOperand shamt) rd rs1 s

/-- SRAI (R237). -/
def execSrai (rd rs1 : RegIdx) (shamt : BitVec 5) (s : State) : Host.Outcome State Fault Refusal :=
  opImm .sra (shiftOperand shamt) rd rs1 s

end Sys2Proof.Machine
end

