-- ==== Sys2Proof/Machine/Other.lean ====
section
/-! DEFINITION. Every other instruction word (46_other_encodings.md): the no-op of an unrecognised
opcode, and the reserved words, which take the spec's alternative of a total step. -/

namespace Sys2Proof.Machine

/-- A reserved word (R291 to R293): "write an arbitrary 32-bit value (a free input) to `rd` and
advance `pc` by 4". DESIGN CHOICE between the spec's two: log 1. -/
def reservedWord (rd : RegIdx) (s : State) : Host.Outcome State Fault Refusal :=
  .next ((s.writeReg rd s.nextFree).useFree.advance)

/-- OP-IMM, `funct3 = 010` (R291). -/
def execReservedOpImm010 (rd _rs1 : RegIdx) (_imm : BitVec 12) (s : State) :
    Host.Outcome State Fault Refusal :=
  reservedWord rd s

/-- OP-IMM, `funct3 = 011` (R291). -/
def execReservedOpImm011 (rd _rs1 : RegIdx) (_imm : BitVec 12) (s : State) :
    Host.Outcome State Fault Refusal :=
  reservedWord rd s

/-- OP-IMM, `funct3 = 101`, an undefined shift type (R292). -/
def execReservedShiftRightType (rd _rs1 : RegIdx) (_shamt : BitVec 5) (_funct7 : BitVec 7)
    (s : State) : Host.Outcome State Fault Refusal :=
  reservedWord rd s

/-- LOAD, `funct3 = 011` (R293). -/
def execReservedLoad011 (rd _rs1 : RegIdx) (_imm : BitVec 12) (s : State) :
    Host.Outcome State Fault Refusal :=
  reservedWord rd s

/-- LOAD, `funct3 = 110` (R293). -/
def execReservedLoad110 (rd _rs1 : RegIdx) (_imm : BitVec 12) (s : State) :
    Host.Outcome State Fault Refusal :=
  reservedWord rd s

/-- LOAD, `funct3 = 111` (R293). -/
def execReservedLoad111 (rd _rs1 : RegIdx) (_imm : BitVec 12) (s : State) :
    Host.Outcome State Fault Refusal :=
  reservedWord rd s

/-- An unrecognised opcode (R290, and so FENCE, SYSTEM and the rest of RV32I, R294 to R296): a
no-op, only `pc` advances. -/
def execUnrecognised (_opcode : BitVec 7) (_rest : BitVec 25) (s : State) :
    Host.Outcome State Fault Refusal :=
  .next s.advance

end Sys2Proof.Machine
end

