-- ==== Sys2Proof/Machine/Dispatch.lean ====
section
/-! DEFINITION. One arm per instruction: each calls that instruction's meaning. -/

namespace Sys2Proof.Machine

def exec (i : Instr) (s : State) : Host.Outcome State Fault Refusal :=
  match i with
  | .addi rd rs1 imm => Sys2Proof.Machine.execAddi rd rs1 imm s
  | .slli rd rs1 shamt ignored => Sys2Proof.Machine.execSlli rd rs1 shamt ignored s
  | .xori rd rs1 imm => Sys2Proof.Machine.execXori rd rs1 imm s
  | .srli rd rs1 shamt => Sys2Proof.Machine.execSrli rd rs1 shamt s
  | .srai rd rs1 shamt => Sys2Proof.Machine.execSrai rd rs1 shamt s
  | .ori rd rs1 imm => Sys2Proof.Machine.execOri rd rs1 imm s
  | .andi rd rs1 imm => Sys2Proof.Machine.execAndi rd rs1 imm s
  | .jal rd offset => Sys2Proof.Machine.execJal rd offset s
  | .lb rd rs1 imm => Sys2Proof.Machine.execLb rd rs1 imm s
  | .lh rd rs1 imm => Sys2Proof.Machine.execLh rd rs1 imm s
  | .lw rd rs1 imm => Sys2Proof.Machine.execLw rd rs1 imm s
  | .lbu rd rs1 imm => Sys2Proof.Machine.execLbu rd rs1 imm s
  | .lhu rd rs1 imm => Sys2Proof.Machine.execLhu rd rs1 imm s
  | .reservedOpImm010 rd rs1 imm => Sys2Proof.Machine.execReservedOpImm010 rd rs1 imm s
  | .reservedOpImm011 rd rs1 imm => Sys2Proof.Machine.execReservedOpImm011 rd rs1 imm s
  | .reservedShiftRightType rd rs1 shamt funct7 => Sys2Proof.Machine.execReservedShiftRightType rd rs1 shamt funct7 s
  | .reservedLoad011 rd rs1 imm => Sys2Proof.Machine.execReservedLoad011 rd rs1 imm s
  | .reservedLoad110 rd rs1 imm => Sys2Proof.Machine.execReservedLoad110 rd rs1 imm s
  | .reservedLoad111 rd rs1 imm => Sys2Proof.Machine.execReservedLoad111 rd rs1 imm s
  | .unrecognised opcode rest => Sys2Proof.Machine.execUnrecognised opcode rest s

end Sys2Proof.Machine
end

