-- ==== Sys2Proof/Machine/Step.lean ====
section
/-! DEFINITION. One step is one tick (42_cpu_datapath.md R201, R211): fetch at `pc`, decode,
execute, write back. Every word has a meaning, so a step always answers by its instruction. -/

namespace Sys2Proof.Machine

/-- One tick: the instruction at `pc[31:2]` of the instruction memory is executed. -/
def step (s : State) : Host.Outcome State Fault Refusal := exec (decode s.fetchWord) s

/-- `s` with the instruction whose table bits are `w` at the word the next step fetches. -/
def State.withFetchWord (s : State) (nbits w : Nat) : State :=
  s.placeInstrWord (wordAddr s.pc) (tableWord nbits w)

end Sys2Proof.Machine
end

