-- ==== Sys2Proof/Machine/Datapath.lean ====
section
/-! DEFINITION. The core as hardware blocks (00_scope.md R2): the register file's and the program
counter's ports, the decoder with its control bundle, and the CPU that wires them for one tick
(42_cpu_datapath.md). This is a second description of the tick, read from the raw word and not from
`Instr`; that the two agree is a statement, not an assumption. In a bundle `none` is a member the
spec leaves unspecified (a dash of 41_decoder.md R175), and a value computed from one is `none`. -/

namespace Sys2Proof.Machine

/-! ### RegisterFile (40_blocks.md R133 to R137) -/

/-- The two read ports (R134). -/
def rfRead (sel1 sel2 : RegIdx) (s : State) : Word × Word := (s.readReg sel1, s.readReg sel2)

/-- The diagnostic read port `debug_out` (R137, R209). -/
def debugOut (s : State) : Word := s.readReg Config.debugReg

/-- The write port at a tick boundary: effective write-enable is `enable && dest != 0`, and the test
of `dest` is inside the register file (R135, R136). -/
def rfTick (enable : Bool) (dest : RegIdx) (value : Word) (s : State) : State :=
  if enable then s.writeReg dest value else s

/-! ### ProgramCounter (R138 to R141) -/

/-- One tick of the program counter block. -/
def pcTick (load : Bool) (inputAddress : Word) (s : State) : State :=
  if load then s.jumpTo inputAddress else s.advance

/-! ### InstructionDecoder (41_decoder.md) -/

/-- What drives ALU operand `b` (R161; a member of the spec's own, D6, log 18). -/
inductive AluBSrc where
  | reg
  | pc
  deriving DecidableEq, Repr

/-- The write-back source. -/
inductive WbSel where
  | alu
  | pcInc
  | load
  deriving DecidableEq, Repr

/-- The decoded control bundle (R161). -/
structure Bundle where
  pcLoad : Bool
  aluOp : Option AluOp
  aluImm : Option Word
  aluBSrc : Option AluBSrc
  rfWe : Bool
  rfWsel : RegIdx
  rfRsel1 : RegIdx
  rfRsel2 : RegIdx
  wbSel : Option WbSel
  ldWidth : Option Width
  ldSigned : Option Bool
  deriving DecidableEq, Repr

/-- The three kinds of answer of the decoder (R174). -/
inductive DecoderAnswer where
  /-- One of the thirteen instructions. -/
  | defined (b : Bundle)
  /-- An unrecognised opcode: the no-op bundle (R172). -/
  | noop (b : Bundle)
  /-- A reserved word: only the class-level outputs are given (R173). -/
  | reserved (b : Bundle)
  deriving DecidableEq, Repr

/-- The bundle of an answer. -/
def bundleOf : DecoderAnswer → Bundle
  | .defined b => b
  | .noop b => b
  | .reserved b => b

/-- The defaults with the three selectors, which are wired straight from the word for every word
(R162, R163). -/
def defaultBundle (w : Word) : Bundle where
  pcLoad := false
  aluOp := none
  aluImm := none
  aluBSrc := none
  rfWe := false
  rfWsel := w.extractLsb' 7 5
  rfRsel1 := w.extractLsb' 15 5
  rfRsel2 := w.extractLsb' 20 5
  wbSel := none
  ldWidth := none
  ldSigned := none

/-- `imm_i` of the raw word (R167, R170). -/
def rawImmI (w : Word) : Word := (w.extractLsb' 20 12).signExtend 32

/-- `zext_5(shamt)` of the raw word (R167). -/
def rawShamt (w : Word) : Word := (w.extractLsb' 20 5).setWidth 32

/-- `imm_j` of the raw word (R169). -/
def rawImmJ (w : Word) : Word := (fieldImmJ w).signExtend 32

/-- OP-IMM, class-level outputs (R165). -/
def opImmClass (w : Word) : Bundle :=
  { defaultBundle w with rfWe := true, wbSel := some .alu, aluBSrc := some .reg }

/-- An OP-IMM instruction: its operation and its operand. -/
def opImmAnswer (w : Word) (op : AluOp) (operand : Word) : DecoderAnswer :=
  .defined { opImmClass w with aluOp := some op, aluImm := some operand }

/-- OP-IMM by `funct3`, and for `101` by `funct7` (R166, R167, R168, R173). -/
def controlOpImm (w : Word) : DecoderAnswer :=
  match (w.extractLsb' 12 3).toNat with
  | 0b000 => opImmAnswer w .add (rawImmI w)
  | 0b001 => opImmAnswer w .sll (rawShamt w)
  | 0b100 => opImmAnswer w .xor (rawImmI w)
  | 0b101 =>
    match (w.extractLsb' 25 7).toNat with
    | 0b0000000 => opImmAnswer w .srl (rawShamt w)
    | 0b0100000 => opImmAnswer w .sra (rawShamt w)
    | _ => .reserved (opImmClass w)
  | 0b110 => opImmAnswer w .or (rawImmI w)
  | 0b111 => opImmAnswer w .and (rawImmI w)
  | _ => .reserved (opImmClass w)

/-- JAL (R169). -/
def controlJal (w : Word) : DecoderAnswer :=
  .defined { defaultBundle w with
    rfWe := true
    pcLoad := true
    aluOp := some .add
    aluImm := some (rawImmJ w)
    aluBSrc := some .pc
    wbSel := some .pcInc }

/-- LOAD, class-level outputs (R170), with the signedness rule `not instr[14]` (R171). -/
def loadClass (w : Word) : Bundle :=
  { defaultBundle w with
    rfWe := true
    aluOp := some .add
    aluImm := some (rawImmI w)
    aluBSrc := some .reg
    wbSel := some .load
    ldSigned := some (!w.getLsbD 14) }

/-- LOAD by `funct3` (R171, R173). -/
def controlLoad (w : Word) : DecoderAnswer :=
  match (w.extractLsb' 12 3).toNat with
  | 0b000 => .defined { loadClass w with ldWidth := some .byte }
  | 0b001 => .defined { loadClass w with ldWidth := some .half }
  | 0b010 => .defined { loadClass w with ldWidth := some .word }
  | 0b100 => .defined { loadClass w with ldWidth := some .byte }
  | 0b101 => .defined { loadClass w with ldWidth := some .half }
  | _ => .reserved (loadClass w)

/-- The decoder block: a function of the instruction word alone (R160, R164). -/
def controlOf (w : Word) : DecoderAnswer :=
  match (w.extractLsb' 0 7).toNat with
  | 0b0010011 => controlOpImm w
  | 0b1101111 => controlJal w
  | 0b0000011 => controlLoad w
  | _ => .noop (defaultBundle w)

/-! ### CPU (42_cpu_datapath.md) -/

/-- The bundle of this tick (R202, R203). -/
def tickBundle (s : State) : Bundle := bundleOf (controlOf s.fetchWord)

/-- ALU operand `b`: a register value or `pc` (R204). -/
def aluOperandB (src : AluBSrc) (b : Bundle) (s : State) : Word :=
  match src with
  | .reg => (rfRead b.rfRsel1 b.rfRsel2 s).1
  | .pc => s.pc

/-- The ALU result (R205). -/
def aluResult (b : Bundle) (s : State) : Option Word :=
  match b.aluOp, b.aluImm, b.aluBSrc with
  | some op, some a, some src => some (alu op a (aluOperandB src b s))
  | _, _, _ => none

/-- The extracted load value (R206). -/
def loadValue (b : Bundle) (s : State) : Option Word :=
  match aluResult b s, b.ldWidth, b.ldSigned with
  | some addr, some width, some signed =>
    some (extract (s.dataWord (wordAddr addr)) addr width signed)
  | _, _, _ => none

/-- The write-back mux (R208). -/
def wbValue (b : Bundle) (s : State) : Option Word :=
  match b.wbSel with
  | some .alu => aluResult b s
  | some .pcInc => some s.pcInc
  | some .load => loadValue b s
  | none => none

/-- What a wire carries: the value the spec defines, else a free one (R291, log 1; U11). -/
def driven (v : Option Word) (s : State) : Word := v.getD s.nextFree

/-- A register write whose value the spec does not define, which uses a free value. -/
def writesFree (b : Bundle) (s : State) : Bool := b.rfWe && (wbValue b s).isNone

/-- The commit (R210): the register write and the program counter's tick together, from values of
the pre-tick state `s`. -/
def commit (b : Bundle) (s : State) : State :=
  let written := rfTick b.rfWe b.rfWsel (driven (wbValue b s) s) s
  let counted := if writesFree b s then written.useFree else written
  pcTick b.pcLoad (driven (aluResult b s) s) counted

/-- One tick of the wired blocks: compute, then commit (R201). -/
def datapathTick (s : State) : State := commit (tickBundle s) s

/-- The data-memory read that counts as an access of this tick: only LB, LH, LW, LBU and LHU have
one (20_memory.md R61; log 17). -/
def dataAccess (s : State) : Option WordAddr :=
  match controlOf s.fetchWord with
  | .defined b => if b.wbSel = some .load then (aluResult b s).map wordAddr else none
  | .noop _ => none
  | .reserved _ => none

/-- The outputs of the core during a tick (R200). -/
structure Outputs where
  imemAddr : WordAddr
  /-- `alu_result[31:2]`; `none` where the spec does not define the ALU result. -/
  dmemAddr : Option WordAddr
  debugOut : Word
  /-- The enable of a data-memory write port, inactive at all times (20_memory.md R59; log 20). -/
  dmemWriteEnable : Bool
  deriving DecidableEq, Repr

/-- The outputs in a state (R200, R202, R206, R209). -/
def outputs (s : State) : Outputs where
  imemAddr := wordAddr s.pc
  dmemAddr := (aluResult (tickBundle s) s).map wordAddr
  debugOut := debugOut s
  dmemWriteEnable := false

end Sys2Proof.Machine
end

