-- ==== Sys2Proof/Safety.lean ====
section
/-! DEFINITION. What counts as a safe state and a safe run, and the effect of a tick, in the terms
the statements use. -/

namespace Sys2Proof.Machine

/-- `pc_inc = pc + 4` modulo 2^32 (10_state.md R29). -/
abbrev State.Linked (s : State) : Prop := s.pcInc = s.pc + 4#32

/-- `pc[0]` is 0 (10_state.md R31). -/
abbrev State.PcEven (s : State) : Prop := s.pc.getLsbD 0 = false

/-- Both memories are in canonical form. -/
abbrev State.MemoriesWf (s : State) : Prop :=
  Memory.wf s.imem = true ∧ Memory.wf s.dmem = true

/-- The machine's invariant. -/
abbrev State.Inv (s : State) : Prop := s.MemoriesWf ∧ s.Linked ∧ s.PcEven

/-- Every byte of both memories reads in `t` as it read in `s`. -/
def SameMemory (s t : State) : Prop :=
  (∀ a, t.instrByte a = s.instrByte a) ∧ (∀ a, t.dataByte a = s.dataByte a)

/-- From `s` to `t` register `rd` has taken `v`, unless it is register 0, and every other register
reads as before (10_state.md R22, R23, R25). -/
def WritesReg (rd : RegIdx) (v : Word) (s t : State) : Prop :=
  ∀ r, t.readReg r = if r = rd ∧ rd ≠ 0#5 then v else s.readReg r

/-- The whole effect of an instruction: `rd` takes `v`, `pc` becomes `target` with `pc_inc` 4 above
it, and nothing else changes. -/
def Effect (rd : RegIdx) (v target : Word) (s t : State) : Prop :=
  WritesReg rd v s t ∧ t.pc = target ∧ t.pcInc = target + 4#32 ∧ SameMemory s t ∧
    t.freeCount = s.freeCount

/-- The whole effect of a word that writes no register. -/
def NoRegEffect (target : Word) (s t : State) : Prop :=
  (∀ r, t.readReg r = s.readReg r) ∧ t.pc = target ∧ t.pcInc = target + 4#32 ∧ SameMemory s t ∧
    t.freeCount = s.freeCount

/-- The machine is parked: a tick changes nothing (42_cpu_datapath.md R213). -/
def Parked (s : State) : Prop := step s = .next s

/-- A run is safe if no number of ticks ends in a fault or a refusal. -/
def SafeRun (s : State) : Prop := ∀ n, ∃ t, Host.Core.run Sys2Proof.core n s = .next t

end Sys2Proof.Machine
end

