-- ==== Sys2Proof/Certificates/Slice0/Obligations.lean ====
section
/-! DEFINITION. The statements for the provers, each from a rule of spec/. A statement whose
docstring says "the model's choice" rests on a log entry and not on a rule. -/

open Sys2Proof Sys2Proof.Machine

/-! ### Register file -/

/-- 10_state.md R22: register 0 reads as zero on both primary ports and on the diagnostic port, in
every state, so regardless of any prior write. -/
def Obligations.RegisterZeroReadsZero : Prop :=
  ∀ (s : State) (sel : RegIdx),
    s.readReg 0#5 = 0#32 ∧ (rfRead 0#5 sel s).1 = 0#32 ∧ (rfRead sel 0#5 s).2 = 0#32 ∧
      debugOut s = (if Config.debugReg = 0#5 then 0#32 else s.readReg Config.debugReg)

/-- 40_blocks.md R135: if `enable = 1` and `dest != 0` register `dest` takes `value` and every other
keeps its content; if `enable = 0` or `dest = 0` no register changes. -/
def Obligations.RegisterFileWritePort : Prop :=
  ∀ (enable : Bool) (dest r : RegIdx) (value : Word) (s : State),
    (rfTick enable dest value s).readReg r =
      if enable = true ∧ dest ≠ 0#5 ∧ r = dest then value else s.readReg r

/-- 10_state.md R23: a word whose `rd` field is 0 changes no register. -/
def Obligations.WriteToRegisterZeroDropped : Prop :=
  ∀ s t : State, fieldRd s.fetchWord = 0#5 → step s = .next t →
    ∀ r, t.readReg r = s.readReg r

/-- 10_state.md R25: at most one register is written in a tick; it can only be the one the `rd`
field names (R26), and never register 0. -/
def Obligations.OneRegisterWrittenPerTick : Prop :=
  ∀ s t : State, step s = .next t →
    ∀ r, t.readReg r ≠ s.readReg r → r = fieldRd s.fetchWord ∧ r ≠ 0#5

/-! ### Program counter -/

/-- 40_blocks.md R139, both arms, and that the block touches nothing else. -/
def Obligations.ProgramCounterTransition : Prop :=
  ∀ (load : Bool) (inputAddress : Word) (s : State),
    (load = true → (pcTick load inputAddress s).pc = inputAddress ∧
      (pcTick load inputAddress s).pcInc = inputAddress + 4#32) ∧
    (load = false → (pcTick load inputAddress s).pc = s.pcInc ∧
      (pcTick load inputAddress s).pcInc = s.pcInc + 4#32) ∧
    (pcTick load inputAddress s).pcInc = (pcTick load inputAddress s).pc + 4#32 ∧
    (∀ r, (pcTick load inputAddress s).readReg r = s.readReg r) ∧
    SameMemory s (pcTick load inputAddress s)

/-- 10_state.md R30: how `pc` and `pc_inc` advance in every tick of the machine. -/
def Obligations.PcAdvanceEveryTick : Prop :=
  ∀ s t : State, s.Linked → step s = .next t →
    (fieldOpcode s.fetchWord = 0b1101111#7 →
      t.pc = s.pc + (fieldImmJ s.fetchWord).signExtend 32 ∧ t.pcInc = t.pc + 4#32) ∧
    (fieldOpcode s.fetchWord ≠ 0b1101111#7 →
      t.pc = s.pc + 4#32 ∧ t.pc = s.pcInc ∧ t.pcInc = t.pc + 4#32)

/-- 10_state.md R29: a tick establishes `pc_inc = pc + 4`, from every state, linked or not. -/
def Obligations.TickEstablishesLink : Prop :=
  ∀ s t : State, step s = .next t → t.Linked

/-- 20_memory.md R51: in every tick the instruction is the whole word `IMem(pc[31:2])`; the two low
bits of `pc` do not reach the memory. -/
def Obligations.FetchUsesWordAddress : Prop :=
  (∀ s : State, s.fetchWord = s.instrWord (s.pc.extractLsb' 2 30) ∧
    step s = exec (decode (s.instrWord (s.pc.extractLsb' 2 30))) s) ∧
  ∀ s s' : State, s'.imem = s.imem → s'.pc >>> 2 = s.pc >>> 2 → s'.fetchWord = s.fetchWord

/-! ### ALU -/

/-- 40_blocks.md R121 and R122: ADD and SUB modulo 2^32, with their corner cases. -/
def Obligations.AluAddSubWrap : Prop :=
  (∀ a b : Word, (alu .add a b).toNat = (a.toNat + b.toNat) % 2 ^ 32 ∧
    ((alu .sub a b).toNat : Int) = ((a.toNat : Int) - b.toNat) % 2 ^ 32 ∧
    alu .sub a a = 0#32) ∧
  alu .add 0xffffffff#32 0x00000001#32 = 0#32 ∧
  alu .add 0x7fffffff#32 0x00000001#32 = 0x80000000#32 ∧
  alu .add 0x00000005#32 0x00000007#32 = 0x0000000c#32 ∧
  alu .sub 0x00000000#32 0x00000001#32 = 0xffffffff#32 ∧
  alu .sub 0x80000000#32 0x00000001#32 = 0x7fffffff#32 ∧
  alu .sub 0x0000000c#32 0x00000007#32 = 0x00000005#32

/-- 40_blocks.md R123, R124, R125: AND, OR, XOR on all 32 bits, with their corner cases. -/
def Obligations.AluBitwiseFullWidth : Prop :=
  (∀ (a b : Word) (i : Nat), i < 32 →
    (alu .and a b).getLsbD i = (a.getLsbD i && b.getLsbD i) ∧
    (alu .or a b).getLsbD i = (a.getLsbD i || b.getLsbD i) ∧
    (alu .xor a b).getLsbD i = (a.getLsbD i ^^ b.getLsbD i)) ∧
  (∀ v : Word, alu .and 0#32 v = 0#32 ∧ alu .and 0xffffffff#32 v = v ∧
    alu .or 0#32 v = v ∧ alu .or 0xffffffff#32 v = 0xffffffff#32 ∧
    alu .xor 0#32 v = v ∧ alu .xor 0xffffffff#32 v = ~~~v ∧ alu .xor v v = 0#32) ∧
  alu .and 0x0000ff0f#32 0x12345678#32 = 0x00005608#32 ∧
  alu .or 0x0000ff0f#32 0x12345678#32 = 0x1234ff7f#32 ∧
  alu .xor 0x0000ff0f#32 0x12345678#32 = 0x1234a977#32

/-- 40_blocks.md R126: SLL shifts `b` left by `a[4:0]`, zeros enter, high bits are lost. -/
def Obligations.AluShiftLeft : Prop :=
  (∀ a b : Word, (alu .sll a b).toNat = b.toNat * 2 ^ (a.toNat % 32) % 2 ^ 32) ∧
  (∀ a b : Word, a.toNat % 32 = 0 → alu .sll a b = b) ∧
  (∀ a b : Word, a.toNat % 32 = 31 → ∀ i, (alu .sll a b).getLsbD i = (i == 31 && b.getLsbD 0)) ∧
  (∀ b : Word, alu .sll 0x00000020#32 b = b) ∧
  alu .sll 0x00000004#32 0x12345678#32 = 0x23456780#32

/-- 40_blocks.md R127 and R128: SRL fills with zeros, SRA with copies of `b[31]`. -/
def Obligations.AluShiftRight : Prop :=
  (∀ a b : Word, (alu .srl a b).toNat = b.toNat / 2 ^ (a.toNat % 32) ∧
    (alu .sra a b).toInt = b.toInt / 2 ^ (a.toNat % 32)) ∧
  (∀ a b : Word, a.toNat % 32 = 0 → alu .srl a b = b ∧ alu .sra a b = b) ∧
  (∀ a b : Word, a.toNat % 32 = 31 →
    alu .srl a b = (if b.getLsbD 31 then 1#32 else 0#32) ∧
    alu .sra a b = (if b.getLsbD 31 then 0xffffffff#32 else 0#32)) ∧
  (∀ a b : Word, b.getLsbD 31 = false → alu .sra a b = alu .srl a b) ∧
  alu .srl 0x00000004#32 0x87654321#32 = 0x08765432#32 ∧
  alu .sra 0x00000001#32 0x8f0f0f0f#32 = 0xc7878787#32 ∧
  alu .sra 0x00000004#32 0x87654321#32 = 0xf8765432#32

/-- 40_blocks.md R129: for SLL, SRL and SRA the amount is `a[4:0]`, a number from 0 to 31, by which
`b` is shifted; bits 31:5 of `a` are ignored. -/
def Obligations.ShiftAmountFiveBits : Prop :=
  (∀ a b : Word,
    shiftAmount a = (a.extractLsb' 0 5).toNat ∧ shiftAmount a = a.toNat % 32 ∧
    shiftAmount a < 32 ∧
    alu .sll a b = b <<< (a.extractLsb' 0 5).toNat ∧
    alu .srl a b = b >>> (a.extractLsb' 0 5).toNat ∧
    alu .sra a b = b.sshiftRight (a.extractLsb' 0 5).toNat) ∧
  ∀ a a' b : Word, a.extractLsb' 0 5 = a'.extractLsb' 0 5 →
    alu .sll a b = alu .sll a' b ∧ alu .srl a b = alu .srl a' b ∧ alu .sra a b = alu .sra a' b

/-! ### Load-value extractor and `MemRead` -/

/-- 40_blocks.md R143, R144, R145: the word unchanged, the half by bit 1, the byte by bits 1:0,
sign- or zero-extended; with the rules' examples. -/
def Obligations.ExtractorSelectsAndExtends : Prop :=
  (∀ (raw addr : Word) (signed : Bool),
    extract raw addr .word signed = raw ∧
    (extract raw addr .half true).toInt =
      ((raw >>> (16 * (addr.toNat / 2 % 2))).setWidth 16).toInt ∧
    (extract raw addr .half false).toNat = (raw >>> (16 * (addr.toNat / 2 % 2))).toNat % 2 ^ 16 ∧
    (extract raw addr .byte true).toInt = ((raw >>> (8 * (addr.toNat % 4))).setWidth 8).toInt ∧
    (extract raw addr .byte false).toNat = (raw >>> (8 * (addr.toNat % 4))).toNat % 2 ^ 8) ∧
  extract 0x1234f678#32 0#32 .half true = 0xfffff678#32 ∧
  extract 0x1234f678#32 0#32 .half false = 0x0000f678#32 ∧
  extract 0x1234f678#32 2#32 .half true = 0x00001234#32 ∧
  extract 0x12345678#32 0#32 .byte false = 0x00000078#32 ∧
  extract 0x800000ff#32 0#32 .byte true = 0xffffffff#32 ∧
  extract 0x12345678#32 1#32 .byte false = 0x00000056#32 ∧
  extract 0x12345678#32 3#32 .byte false = 0x00000012#32 ∧
  extract 0x800000ff#32 3#32 .byte true = 0xffffff80#32 ∧
  extract 0x800000ff#32 3#32 .byte false = 0x00000080#32

/-- 20_memory.md R54: the load primitive, as its pseudocode has it. -/
def Obligations.MemReadPrimitive : Prop :=
  ∀ (s : State) (addr : Word) (signed : Bool),
    s.memRead addr .word signed = s.dataWord (addr.extractLsb' 2 30) ∧
    s.memRead addr .half true =
      (if addr.getLsbD 1 = false then (s.dataWord (addr.extractLsb' 2 30)).extractLsb' 0 16
        else (s.dataWord (addr.extractLsb' 2 30)).extractLsb' 16 16).signExtend 32 ∧
    s.memRead addr .half false =
      (if addr.getLsbD 1 = false then (s.dataWord (addr.extractLsb' 2 30)).extractLsb' 0 16
        else (s.dataWord (addr.extractLsb' 2 30)).extractLsb' 16 16).setWidth 32 ∧
    s.memRead addr .byte true =
      (if addr.extractLsb' 0 2 = 0b00#2 then (s.dataWord (addr.extractLsb' 2 30)).extractLsb' 0 8
        else if addr.extractLsb' 0 2 = 0b01#2 then
          (s.dataWord (addr.extractLsb' 2 30)).extractLsb' 8 8
        else if addr.extractLsb' 0 2 = 0b10#2 then
          (s.dataWord (addr.extractLsb' 2 30)).extractLsb' 16 8
        else (s.dataWord (addr.extractLsb' 2 30)).extractLsb' 24 8).signExtend 32 ∧
    s.memRead addr .byte false =
      (if addr.extractLsb' 0 2 = 0b00#2 then (s.dataWord (addr.extractLsb' 2 30)).extractLsb' 0 8
        else if addr.extractLsb' 0 2 = 0b01#2 then
          (s.dataWord (addr.extractLsb' 2 30)).extractLsb' 8 8
        else if addr.extractLsb' 0 2 = 0b10#2 then
          (s.dataWord (addr.extractLsb' 2 30)).extractLsb' 16 8
        else (s.dataWord (addr.extractLsb' 2 30)).extractLsb' 24 8).setWidth 32

/-- 20_memory.md R55 (the lane order is the spec's own inference, log 6): the byte at byte address
`4w + k` is bits `8k+7 : 8k` of word `w`, and a byte load there returns byte `k` of what a word load
at `4w` returns. The instruction memory's bytes lie the same way (the model's choice, log 5). -/
def Obligations.MemoryLittleEndian : Prop :=
  ∀ (s : State) (wa : WordAddr) (k : Nat), k < 4 →
    s.dataByte (4 * wa.toNat + k) = (s.dataWord wa).extractLsb' (8 * k) 8 ∧
    s.instrByte (4 * wa.toNat + k) = (s.instrWord wa).extractLsb' (8 * k) 8 ∧
    s.memRead (BitVec.ofNat 32 (4 * wa.toNat + k)) .byte false =
      ((s.memRead (BitVec.ofNat 32 (4 * wa.toNat)) .word false).extractLsb' (8 * k) 8).setWidth 32

/-- 20_memory.md section 1 and R65, R67: what the platform holds at a word is what a read of it
returns, every other word is as before, and the two memories are independent. -/
def Obligations.PlatformWordReadBack : Prop :=
  ∀ (s : State) (wa wb : WordAddr) (w : Word),
    ((s.placeDataWord wa w).dataWord wb = if wb = wa then w else s.dataWord wb) ∧
    ((s.placeInstrWord wa w).instrWord wb = if wb = wa then w else s.instrWord wb) ∧
    (s.placeDataWord wa w).instrWord wb = s.instrWord wb ∧
    (s.placeInstrWord wa w).dataWord wb = s.dataWord wb

/-! ### Immediates and encoding -/

/-- 30_encoding.md R85: the I-type immediate, bit by bit, its range, and the rule's examples. -/
def Obligations.ItypeImmediateSignExtended : Prop :=
  (∀ w : Word,
    (∀ i, i ≤ 10 → (immI (fieldImmI w)).getLsbD i = w.getLsbD (20 + i)) ∧
    (∀ i, 11 ≤ i → i ≤ 31 → (immI (fieldImmI w)).getLsbD i = w.getLsbD 31) ∧
    -2048 ≤ (immI (fieldImmI w)).toInt ∧ (immI (fieldImmI w)).toInt ≤ 2047) ∧
  immI 0x001#12 = 0x00000001#32 ∧ immI 0x7ff#12 = 0x000007ff#32 ∧
  immI 0x800#12 = 0xfffff800#32 ∧ immI 0xfff#12 = 0xffffffff#32

/-- 30_encoding.md R87 (the places of the groups are from general knowledge, log 10): the J-type
immediate, bit by bit, and its range of even numbers. -/
def Obligations.JtypeImmediateAssembled : Prop :=
  ∀ w : Word,
    (immJ (fieldImmJ w)).getLsbD 0 = false ∧
    (∀ i, 1 ≤ i → i ≤ 10 → (immJ (fieldImmJ w)).getLsbD i = w.getLsbD (20 + i)) ∧
    (immJ (fieldImmJ w)).getLsbD 11 = w.getLsbD 20 ∧
    (∀ i, 12 ≤ i → i ≤ 19 → (immJ (fieldImmJ w)).getLsbD i = w.getLsbD i) ∧
    (∀ i, 20 ≤ i → i ≤ 31 → (immJ (fieldImmJ w)).getLsbD i = w.getLsbD 31) ∧
    -1048576 ≤ (immJ (fieldImmJ w)).toInt ∧ (immJ (fieldImmJ w)).toInt ≤ 1048574

/-- 30_encoding.md R88: reading an immediate back from its encoding gives it, for every
representable I-type immediate and every representable (even) J-type offset. -/
def Obligations.ImmediateRoundTrip : Prop :=
  (∀ (x : Int) (rs1 rd : RegIdx) (funct3 : BitVec 3) (op : BitVec 7),
    -2048 ≤ x → x ≤ 2047 → (immI (fieldImmI (encodeItype x rs1 funct3 rd op))).toInt = x) ∧
  (∀ (x : Int) (rd : RegIdx) (op : BitVec 7),
    -1048576 ≤ x → x ≤ 1048574 → x % 2 = 0 →
      (immJ (fieldImmJ (encodeJtype x rd op))).toInt = x)

/-- Decoding the encoding of any well-formed instruction gives it back: no bit of an operand is
dropped (30_encoding.md sections 1 to 4). -/
def Obligations.DecodeOfEncode : Prop :=
  ∀ i : Instr, i.wellFormed = true →
    decode (encode i) = i ∧ ∀ rest, decodeBytes (bytesOfWord (encode i) ++ rest) = .ok (i, rest)

/-- Every one of the 2^32 words decodes to a well-formed instruction whose encoding is that word
(41_decoder.md R174, totality): words and well-formed instructions are in one-to-one relation. -/
def Obligations.EncodeOfDecode : Prop :=
  ∀ w : Word, (decode w).wellFormed = true ∧ encode (decode w) = w

/-- 30_encoding.md R100: the decoder answers with the first row of the opcode table, in priority
order, whose `match` is the word under its `mask`. -/
def Obligations.DecodeFollowsOpcodeTable : Prop :=
  ∀ w : Word, firstMatch w opcodeRows = some (decode w).mnemonic

/-- Words written out from the spec's encodings decode to the instructions they stand for
(95_test_vectors.md sections 2.6 to 2.10, and the rules' worked examples). -/
def Obligations.SampleWordsDecode : Prop :=
  decode 0x00110113#32 = .addi 2 2 1 ∧
  decode 0x70f0c193#32 = .xori 3 1 0x70f ∧
  decode 0x8000e193#32 = .ori 3 1 0x800 ∧
  decode 0xff00f193#32 = .andi 3 1 0xff0 ∧
  decode 0x40409193#32 = .slli 3 1 4 0x20 ∧
  decode 0x0040d193#32 = .srli 3 1 4 ∧
  decode 0x4010d193#32 = .srai 3 1 1 ∧
  decode 0xffdff2ef#32 = .jal 5 0x1ffffc ∧
  decode 0x00308183#32 = .lb 3 1 3 ∧
  decode 0xffc0d303#32 = .lhu 6 1 0xffc ∧
  decode 0x2000d013#32 = .reservedShiftRightType 0 1 0 0x10 ∧
  decode 0x00006003#32 = .reservedLoad110 0 0 0 ∧
  decode 0x00000073#32 = .unrecognised 0x73 0

/-! ### The step -/

/-- 42_cpu_datapath.md section 4: a step is the execution of the instruction whose word stands at
`pc`; nothing is added around `exec`. The second clause says it of `withFetchWord`. -/
def Obligations.StepRunsDecodedInstruction : Prop :=
  (∀ (s : State) (i : Instr), i.wellFormed = true → s.fetchWord = encode i →
    step s = exec i s) ∧
  (∀ (s : State) (w : Nat), w < 2 ^ 32 →
    step (s.withFetchWord 32 w) = exec (decode (BitVec.ofNat 32 w)) (s.withFetchWord 32 w))

/-! ### OP-IMM: encoding, result, frame and completion of each instruction -/

/-- 43_op_imm.md R231. -/
def Obligations.AddiEffect : Prop :=
  ∀ (rd rs1 : RegIdx) (imm : BitVec 12),
    decode (imm ++ rs1 ++ 0b000#3 ++ rd ++ 0b0010011#7) = .addi rd rs1 imm ∧
    ∀ s : State, s.Linked → ∃ t, exec (.addi rd rs1 imm) s = .next t ∧
      Effect rd (s.readReg rs1 + imm.signExtend 32) (s.pc + 4#32) s t

/-- 43_op_imm.md R232. -/
def Obligations.XoriEffect : Prop :=
  ∀ (rd rs1 : RegIdx) (imm : BitVec 12),
    decode (imm ++ rs1 ++ 0b100#3 ++ rd ++ 0b0010011#7) = .xori rd rs1 imm ∧
    ∀ s : State, s.Linked → ∃ t, exec (.xori rd rs1 imm) s = .next t ∧
      Effect rd (s.readReg rs1 ^^^ imm.signExtend 32) (s.pc + 4#32) s t

/-- 43_op_imm.md R233. -/
def Obligations.OriEffect : Prop :=
  ∀ (rd rs1 : RegIdx) (imm : BitVec 12),
    decode (imm ++ rs1 ++ 0b110#3 ++ rd ++ 0b0010011#7) = .ori rd rs1 imm ∧
    ∀ s : State, s.Linked → ∃ t, exec (.ori rd rs1 imm) s = .next t ∧
      Effect rd (s.readReg rs1 ||| imm.signExtend 32) (s.pc + 4#32) s t

/-- 43_op_imm.md R234. -/
def Obligations.AndiEffect : Prop :=
  ∀ (rd rs1 : RegIdx) (imm : BitVec 12),
    decode (imm ++ rs1 ++ 0b111#3 ++ rd ++ 0b0010011#7) = .andi rd rs1 imm ∧
    ∀ s : State, s.Linked → ∃ t, exec (.andi rd rs1 imm) s = .next t ∧
      Effect rd (s.readReg rs1 &&& imm.signExtend 32) (s.pc + 4#32) s t

/-- 43_op_imm.md R235: `instr[31:25]` is not decoded, so every value of it is the same SLLI. -/
def Obligations.SlliEffect : Prop :=
  ∀ (rd rs1 : RegIdx) (shamt : BitVec 5) (ignored : BitVec 7),
    decode (ignored ++ shamt ++ rs1 ++ 0b001#3 ++ rd ++ 0b0010011#7) =
      .slli rd rs1 shamt ignored ∧
    ∀ s : State, s.Linked → ∃ t, exec (.slli rd rs1 shamt ignored) s = .next t ∧
      Effect rd (s.readReg rs1 <<< shamt.toNat) (s.pc + 4#32) s t

/-- 43_op_imm.md R236. -/
def Obligations.SrliEffect : Prop :=
  ∀ (rd rs1 : RegIdx) (shamt : BitVec 5),
    decode (0b0000000#7 ++ shamt ++ rs1 ++ 0b101#3 ++ rd ++ 0b0010011#7) = .srli rd rs1 shamt ∧
    ∀ s : State, s.Linked → ∃ t, exec (.srli rd rs1 shamt) s = .next t ∧
      Effect rd (s.readReg rs1 >>> shamt.toNat) (s.pc + 4#32) s t

/-- 43_op_imm.md R237. -/
def Obligations.SraiEffect : Prop :=
  ∀ (rd rs1 : RegIdx) (shamt : BitVec 5),
    decode (0b0100000#7 ++ shamt ++ rs1 ++ 0b101#3 ++ rd ++ 0b0010011#7) = .srai rd rs1 shamt ∧
    ∀ s : State, s.Linked → ∃ t, exec (.srai rd rs1 shamt) s = .next t ∧
      Effect rd ((s.readReg rs1).sshiftRight shamt.toNat) (s.pc + 4#32) s t

/-! ### JAL -/

/-- 44_jal.md R260 (the places of the immediate groups: log 10). The link value is `pc + 4`, the
target `pc + imm_j`. -/
def Obligations.JalEffect : Prop :=
  (∀ (rd : RegIdx) (b20 b11 : BitVec 1) (b10 : BitVec 10) (b19 : BitVec 8),
    decode (b20 ++ b10 ++ b11 ++ b19 ++ rd ++ 0b1101111#7) =
      .jal rd (b20 ++ b19 ++ b11 ++ b10 ++ 0#1)) ∧
  ∀ (rd : RegIdx) (offset : BitVec 21) (s : State), s.Linked →
    ∃ t, exec (.jal rd offset) s = .next t ∧
      Effect rd (s.pc + 4#32) (s.pc + offset.signExtend 32) s t

/-- 44_jal.md R261: the target is taken as it is, whatever its alignment: `target[0] = pc[0]` for a
well-formed JAL, the next tick fetches `IMem(target[31:2])`, and if that word is no JAL the tick
after goes on at `target + 4`. -/
def Obligations.JalMisalignedTarget : Prop :=
  ∀ (rd : RegIdx) (offset : BitVec 21) (s t : State), (Instr.jal rd offset).wellFormed = true →
    exec (.jal rd offset) s = .next t →
      t.pc = s.pc + offset.signExtend 32 ∧ t.pc.getLsbD 0 = s.pc.getLsbD 0 ∧
      t.fetchWord = s.instrWord ((s.pc + offset.signExtend 32).extractLsb' 2 30) ∧
      ∀ u, fieldOpcode t.fetchWord ≠ 0b1101111#7 → step t = .next u →
        u.pc = s.pc + offset.signExtend 32 + 4#32

/-- 44_jal.md R262 (b) and 42_cpu_datapath.md R213: `JAL x0, 0`, word `0x0000006f`, parks the
machine: the tick changes nothing at all. -/
def Obligations.JumpToSelfParks : Prop :=
  ∀ s : State, s.Linked → s.fetchWord = 0x0000006f#32 → Parked s

/-! ### Loads: encoding, result, frame and completion of each instruction -/

/-- 45_load.md R271. -/
def Obligations.LbEffect : Prop :=
  ∀ (rd rs1 : RegIdx) (imm : BitVec 12),
    decode (imm ++ rs1 ++ 0b000#3 ++ rd ++ 0b0000011#7) = .lb rd rs1 imm ∧
    ∀ (s : State) (addr : Word), s.Linked → addr = s.readReg rs1 + imm.signExtend 32 →
      ∃ t, exec (.lb rd rs1 imm) s = .next t ∧
        Effect rd
          (((s.dataWord (addr.extractLsb' 2 30)).extractLsb'
            (8 * (addr.extractLsb' 0 2).toNat) 8).signExtend 32) (s.pc + 4#32) s t

/-- 45_load.md R272: `addr[0]` is ignored (the default policy, log 7). -/
def Obligations.LhEffect : Prop :=
  ∀ (rd rs1 : RegIdx) (imm : BitVec 12),
    decode (imm ++ rs1 ++ 0b001#3 ++ rd ++ 0b0000011#7) = .lh rd rs1 imm ∧
    ∀ (s : State) (addr : Word), s.Linked → addr = s.readReg rs1 + imm.signExtend 32 →
      ∃ t, exec (.lh rd rs1 imm) s = .next t ∧
        Effect rd
          ((if addr.getLsbD 1 = false then (s.dataWord (addr.extractLsb' 2 30)).extractLsb' 0 16
            else (s.dataWord (addr.extractLsb' 2 30)).extractLsb' 16 16).signExtend 32)
          (s.pc + 4#32) s t

/-- 45_load.md R273: `addr[1:0]` are ignored (the default policy, log 7). -/
def Obligations.LwEffect : Prop :=
  ∀ (rd rs1 : RegIdx) (imm : BitVec 12),
    decode (imm ++ rs1 ++ 0b010#3 ++ rd ++ 0b0000011#7) = .lw rd rs1 imm ∧
    ∀ (s : State) (addr : Word), s.Linked → addr = s.readReg rs1 + imm.signExtend 32 →
      ∃ t, exec (.lw rd rs1 imm) s = .next t ∧
        Effect rd (s.dataWord (addr.extractLsb' 2 30)) (s.pc + 4#32) s t

/-- 45_load.md R274: the result is in 0..0xff. -/
def Obligations.LbuEffect : Prop :=
  ∀ (rd rs1 : RegIdx) (imm : BitVec 12),
    decode (imm ++ rs1 ++ 0b100#3 ++ rd ++ 0b0000011#7) = .lbu rd rs1 imm ∧
    ∀ (s : State) (addr : Word), s.Linked → addr = s.readReg rs1 + imm.signExtend 32 →
      ∃ t v, exec (.lbu rd rs1 imm) s = .next t ∧
        v = ((s.dataWord (addr.extractLsb' 2 30)).extractLsb'
            (8 * (addr.extractLsb' 0 2).toNat) 8).setWidth 32 ∧
        v.toNat ≤ 0xff ∧ Effect rd v (s.pc + 4#32) s t

/-- 45_load.md R275: `addr[0]` is ignored (the default policy, log 7); the result is in 0..0xffff. -/
def Obligations.LhuEffect : Prop :=
  ∀ (rd rs1 : RegIdx) (imm : BitVec 12),
    decode (imm ++ rs1 ++ 0b101#3 ++ rd ++ 0b0000011#7) = .lhu rd rs1 imm ∧
    ∀ (s : State) (addr : Word), s.Linked → addr = s.readReg rs1 + imm.signExtend 32 →
      ∃ t v, exec (.lhu rd rs1 imm) s = .next t ∧
        v = (if addr.getLsbD 1 = false then (s.dataWord (addr.extractLsb' 2 30)).extractLsb' 0 16
            else (s.dataWord (addr.extractLsb' 2 30)).extractLsb' 16 16).setWidth 32 ∧
        v.toNat ≤ 0xffff ∧ Effect rd v (s.pc + 4#32) s t

/-- 45_load.md R276 and 20_memory.md R57 (the spec's decision D7, log 7): what is misaligned; under
`ignore_low_bits` the load equals the one at the aligned address; under `refuse` exactly the
misaligned loads have no meaning, and an aligned load is the same under both policies. -/
def Obligations.MisalignedLoadPolicies : Prop :=
  (∀ addr : Word, (misaligned .byte addr = false) ∧
    (misaligned .half addr = true ↔ addr.toNat % 2 ≠ 0) ∧
    (misaligned .word addr = true ↔ addr.toNat % 4 ≠ 0)) ∧
  (∀ (s : State) (addr : Word) (signed : Bool),
    s.memRead addr .half signed = s.memRead (addr &&& 0xfffffffe#32) .half signed ∧
    s.memRead addr .word signed = s.memRead (addr &&& 0xfffffffc#32) .word signed) ∧
  (∀ (width : Width) (signed : Bool) (rd rs1 : RegIdx) (imm : BitVec 12) (s : State),
    (misaligned width (s.effectiveAddr rs1 imm) = true →
      loadInto .refuse width signed rd rs1 imm s = .refused .misalignedLoad) ∧
    (misaligned width (s.effectiveAddr rs1 imm) = false →
      loadInto .refuse width signed rd rs1 imm s =
        loadInto .ignoreLowBits width signed rd rs1 imm s) ∧
    loadInto .ignoreLowBits width signed rd rs1 imm s =
      .next ((s.writeReg rd (s.memRead (s.readReg rs1 + imm.signExtend 32) width signed)).advance))

/-! ### Every other word -/

/-- 46_other_encodings.md R290: an unrecognised opcode is a no-op that only advances `pc`, with no
register write and no data-memory access. -/
def Obligations.UnrecognisedOpcodeNoop : Prop :=
  (∀ (opcode : BitVec 7) (rest : BitVec 25), opcode ≠ 0b0000011#7 → opcode ≠ 0b0010011#7 →
    opcode ≠ 0b1101111#7 →
      decode (rest ++ opcode) = .unrecognised opcode rest ∧
      ∀ s : State, s.fetchWord = rest ++ opcode → dataAccess s = none) ∧
  ∀ (opcode : BitVec 7) (rest : BitVec 25) (s : State), s.Linked →
    ∃ t, exec (.unrecognised opcode rest) s = .next t ∧ NoRegEffect (s.pc + 4#32) s t

/-- 46_other_encodings.md R294, R295, R296: FENCE, SYSTEM, LUI, AUIPC, JALR, branches, stores and OP
are no-ops, whatever the word's other bits. -/
def Obligations.RestOfRv32iSkipped : Prop :=
  ∀ s : State, s.Linked →
    fieldOpcode s.fetchWord ∈ [0b0001111#7, 0b1110011#7, 0b0110111#7, 0b0010111#7, 0b1100111#7,
      0b1100011#7, 0b0100011#7, 0b0110011#7] →
    ∃ t, step s = .next t ∧ NoRegEffect (s.pc + 4#32) s t

/-- 46_other_encodings.md R291, R292, R293, the alternative each rule gives (the model's choice, log
1 and 2): a reserved word writes a free value to `rd` and advances `pc` by 4, for every free value. -/
def Obligations.ReservedWordsWriteFreeValue : Prop :=
  ∀ (rd rs1 : RegIdx) (imm : BitVec 12) (shamt : BitVec 5) (funct7 : BitVec 7),
    decode (imm ++ rs1 ++ 0b010#3 ++ rd ++ 0b0010011#7) = .reservedOpImm010 rd rs1 imm ∧
    decode (imm ++ rs1 ++ 0b011#3 ++ rd ++ 0b0010011#7) = .reservedOpImm011 rd rs1 imm ∧
    decode (imm ++ rs1 ++ 0b011#3 ++ rd ++ 0b0000011#7) = .reservedLoad011 rd rs1 imm ∧
    decode (imm ++ rs1 ++ 0b110#3 ++ rd ++ 0b0000011#7) = .reservedLoad110 rd rs1 imm ∧
    decode (imm ++ rs1 ++ 0b111#3 ++ rd ++ 0b0000011#7) = .reservedLoad111 rd rs1 imm ∧
    (funct7 ≠ 0b0000000#7 → funct7 ≠ 0b0100000#7 →
      decode (funct7 ++ shamt ++ rs1 ++ 0b101#3 ++ rd ++ 0b0010011#7) =
        .reservedShiftRightType rd rs1 shamt funct7) ∧
    ∀ s : State, s.Linked →
      ∀ i ∈ [Instr.reservedOpImm010 rd rs1 imm, .reservedOpImm011 rd rs1 imm,
        .reservedShiftRightType rd rs1 shamt funct7, .reservedLoad011 rd rs1 imm,
        .reservedLoad110 rd rs1 imm, .reservedLoad111 rd rs1 imm],
      ∃ t, exec i s = .next t ∧ WritesReg rd (Config.freeValue s.freeCount) s t ∧
        t.pc = s.pc + 4#32 ∧ t.pcInc = s.pc + 8#32 ∧ SameMemory s t ∧
        t.freeCount = s.freeCount + 1

/-! ### The decoder block -/

/-- 41_decoder.md R162: the three register selectors are wired straight from the word. -/
def Obligations.SelectorsWiredFromWord : Prop :=
  ∀ w : Word, (bundleOf (controlOf w)).rfRsel1 = w.extractLsb' 15 5 ∧
    (bundleOf (controlOf w)).rfRsel2 = w.extractLsb' 20 5 ∧
    (bundleOf (controlOf w)).rfWsel = w.extractLsb' 7 5

/-- 41_decoder.md section 3: the outputs for an OP-IMM word, by `funct3` and `funct7`. The last clause,
which immediate the operand is, rests for `funct3 = 101` on the spec's decision D3 (log 11). -/
def Obligations.DecoderOpImmOutputs : Prop :=
  ∀ w : Word, fieldOpcode w = 0b0010011#7 →
    (bundleOf (controlOf w)).rfWe = true ∧ (bundleOf (controlOf w)).wbSel = some .alu ∧
    (bundleOf (controlOf w)).pcLoad = false ∧ (bundleOf (controlOf w)).aluBSrc = some .reg ∧
    (bundleOf (controlOf w)).ldWidth = none ∧ (bundleOf (controlOf w)).ldSigned = none ∧
    (bundleOf (controlOf w)).aluOp =
      (if fieldFunct3 w = 0b000#3 then some .add
      else if fieldFunct3 w = 0b001#3 then some .sll
      else if fieldFunct3 w = 0b100#3 then some .xor
      else if fieldFunct3 w = 0b110#3 then some .or
      else if fieldFunct3 w = 0b111#3 then some .and
      else if fieldFunct3 w = 0b101#3 ∧ fieldFunct7 w = 0b0000000#7 then some .srl
      else if fieldFunct3 w = 0b101#3 ∧ fieldFunct7 w = 0b0100000#7 then some .sra
      else none) ∧
    ((bundleOf (controlOf w)).aluOp ≠ none → (bundleOf (controlOf w)).aluImm =
      if fieldFunct3 w = 0b001#3 ∨ fieldFunct3 w = 0b101#3 then
        some ((w.extractLsb' 20 5).setWidth 32)
      else some ((w.extractLsb' 20 12).signExtend 32))

/-- 41_decoder.md R169: the outputs for a JAL word. -/
def Obligations.DecoderJalOutputs : Prop :=
  ∀ w : Word, fieldOpcode w = 0b1101111#7 → ∃ b, controlOf w = .defined b ∧
    b.rfWe = true ∧ b.pcLoad = true ∧ b.aluOp = some .add ∧
    b.aluImm = some (immJ (fieldImmJ w)) ∧ b.aluBSrc = some .pc ∧ b.wbSel = some .pcInc ∧
    b.ldWidth = none ∧ b.ldSigned = none

/-- 41_decoder.md R170, R171: the outputs for a LOAD word, with width and signedness by `funct3`. -/
def Obligations.DecoderLoadOutputs : Prop :=
  ∀ w : Word, fieldOpcode w = 0b0000011#7 →
    (bundleOf (controlOf w)).rfWe = true ∧ (bundleOf (controlOf w)).pcLoad = false ∧
    (bundleOf (controlOf w)).aluOp = some .add ∧
    (bundleOf (controlOf w)).aluImm = some (immI (fieldImmI w)) ∧
    (bundleOf (controlOf w)).aluBSrc = some .reg ∧ (bundleOf (controlOf w)).wbSel = some .load ∧
    (bundleOf (controlOf w)).ldSigned = some (!w.getLsbD 14) ∧
    (bundleOf (controlOf w)).ldWidth =
      (if fieldFunct3 w = 0b010#3 then some .word
      else if fieldFunct3 w = 0b001#3 ∨ fieldFunct3 w = 0b101#3 then some .half
      else if fieldFunct3 w = 0b000#3 ∨ fieldFunct3 w = 0b100#3 then some .byte
      else none)

/-- 41_decoder.md R172: an unrecognised opcode gives the no-op bundle, no write and no jump. -/
def Obligations.DecoderNoopOutputs : Prop :=
  ∀ w : Word, fieldOpcode w ∉ [0b0000011#7, 0b0010011#7, 0b1101111#7] →
    ∃ b, controlOf w = .noop b ∧ b.pcLoad = false ∧ b.rfWe = false

/-! ### The whole machine -/

/-- Refinement (42_cpu_datapath.md, 41_decoder.md, 40_blocks.md): the tick of the wired hardware
blocks, driven by the raw instruction word, is the instruction-level step, for every state and every
word (the reserved words by log 1, misaligned loads by log 7). -/
def Obligations.DatapathRefinesStep : Prop :=
  ∀ s : State, step s = .next (datapathTick s)

/-- The invariant (10_state.md R29, R31; canonical memories are the model's form): every step keeps
both memories canonical, `pc_inc = pc + 4` and `pc[0] = 0`. -/
def Obligations.StepKeepsInvariant : Prop :=
  ∀ s t : State, s.Inv → step s = .next t → t.Inv

/-- The invariant holds at reset. -/
def Obligations.ResetMeetsInvariant : Prop := State.reset.Inv

/-- What the environment can do keeps the invariant too (70_reset_and_hazards.md R341): reset of a
running core, and words held in the two memories. -/
def Obligations.EnvironmentKeepsInvariant : Prop :=
  ∀ (s : State) (wa : WordAddr) (w : Word), s.Inv →
    s.assertReset.Inv ∧ (s.placeInstrWord wa w).Inv ∧ (s.placeDataWord wa w).Inv

/-- 42_cpu_datapath.md R213 and 60_exceptions.md R300: the machine never stops of its own accord;
from every state every number of ticks ends in a next state, never in a fault or a refusal (the
reserved words by log 1, misaligned loads by log 7). -/
def Obligations.MachineNeverStops : Prop := ∀ s : State, SafeRun s

/-- 20_memory.md R59: the core never writes memory; no step changes either, and the data memory's
write enable is inactive. -/
def Obligations.CoreNeverWritesMemory : Prop :=
  ∀ s t : State, step s = .next t →
    t.imem = s.imem ∧ t.dmem = s.dmem ∧ SameMemory s t ∧ (outputs s).dmemWriteEnable = false

/-- 20_memory.md R61 (the spec's decision D16, log 17): a step depends on the data memory only through
the word of its data access, and only a LOAD with a defined width has one. -/
def Obligations.OnlyLoadedWordIsConsumed : Prop :=
  (∀ (s t : State) (m : Memory),
    (∀ wa, dataAccess s = some wa → Memory.wordAt Config.platformDataByte m wa = s.dataWord wa) →
    step s = .next t → step { s with dmem := m } = .next { t with dmem := m }) ∧
  (∀ s : State, dataAccess s =
    if fieldOpcode s.fetchWord = 0b0000011#7 ∧ fieldFunct3 s.fetchWord ∉ [0b011#3, 0b110#3, 0b111#3]
    then some ((s.readReg (fieldRs1 s.fetchWord) +
      (fieldImmI s.fetchWord).signExtend 32).extractLsb' 2 30)
    else none)

/-- 10_state.md R26: a step consumes no register but the one at `rs1`, and that one only for OP-IMM
and LOAD: changing any other register `r` before the tick changes nothing else after it, and what the
word writes is the same also where it writes `r`; where it does not, `r` keeps the changed value. -/
def Obligations.OnlyRs1IsConsumed : Prop :=
  ∀ (s t : State) (r : RegIdx) (v : Word),
    (r ≠ fieldRs1 s.fetchWord ∨ fieldOpcode s.fetchWord ∉ [0b0010011#7, 0b0000011#7]) →
    step s = .next t →
    ∃ t', step (s.writeReg r v) = .next t' ∧ t'.pc = t.pc ∧ t'.pcInc = t.pcInc ∧
      t'.imem = t.imem ∧ t'.dmem = t.dmem ∧ t'.freeCount = t.freeCount ∧
      (∀ q, q ≠ r → t'.readReg q = t.readReg q) ∧
      t'.readReg r =
        if r = 0#5 then 0#32
        else if r = fieldRd s.fetchWord ∧
            fieldOpcode s.fetchWord ∈ [0b0010011#7, 0b0000011#7, 0b1101111#7] then t.readReg r
        else v

/-! ### Reset and the outputs -/

/-- 70_reset_and_hazards.md R330, with 10_state.md R40 and R41 (the values of `pc_inc` and of the
registers are the spec's decisions D4 and D5, log 13 and 14): the state after reset, from power-on
and from any running state, whose memories reset does not change. -/
def Obligations.ResetState : Prop :=
  State.reset.pc = 0#32 ∧ State.reset.pcInc = 4#32 ∧ (∀ r, State.reset.readReg r = 0#32) ∧
  ∀ s : State, s.assertReset.pc = 0#32 ∧ s.assertReset.pcInc = 4#32 ∧
    (∀ r, s.assertReset.readReg r = 0#32) ∧ SameMemory s s.assertReset

/-- 70_reset_and_hazards.md section 1: the first tick after reset executes `IMem(0)`; after it `pc = 4`
unless the word was a JAL. -/
def Obligations.FirstTickAfterReset : Prop :=
  ∀ s : State, step s.assertReset = exec (decode (s.instrWord 0#30)) s.assertReset ∧
    ∀ t, fieldOpcode (s.instrWord 0#30) ≠ 0b1101111#7 → step s.assertReset = .next t →
      t.pc = 4#32

/-- 42_cpu_datapath.md R200, R209 and 40_blocks.md R137 (`DEBUG_REG` open, log 8): the outputs of the
core. The diagnostic port shows the pre-tick content; after a tick that writes the register it shows
the written value, and it shows a value whatever the instruction is. -/
def Obligations.CoreOutputs : Prop :=
  (∀ s : State, (outputs s).imemAddr = s.pc.extractLsb' 2 30 ∧
    (outputs s).debugOut = (if Config.debugReg = 0#5 then 0#32 else s.readReg Config.debugReg)) ∧
  (∀ (s t : State) (rd : RegIdx) (v target : Word), Effect rd v target s t →
    (outputs t).debugOut =
      if Config.debugReg = rd ∧ rd ≠ 0#5 then v else (outputs s).debugOut) ∧
  (∀ (s : State) (wa : WordAddr), dataAccess s = some wa → (outputs s).dmemAddr = some wa)
end

