-- ==== Sys2Proof/Laws/Decode.lean ====
section
/-! SUPPORT. The bits of the encoded words, the fields read back from them, and the masks of the
opcode table in terms of fields. Proofs about decoding cite these and never unfold a layout. -/

namespace Sys2Proof

/-! ### Bits of the layouts -/

theorem wordI_bit (imm : BitVec 12) (rs1 : RegIdx) (f3 : BitVec 3) (rd : RegIdx) (op : BitVec 7)
    (i : Nat) :
    (wordI imm rs1 f3 rd op).getLsbD i =
      if i < 7 then op.getLsbD i
      else if i < 12 then rd.getLsbD (i - 7)
      else if i < 15 then f3.getLsbD (i - 12)
      else if i < 20 then rs1.getLsbD (i - 15)
      else imm.getLsbD (i - 20) := by
  unfold wordI
  change BitVec.getLsbD (w := 12 + 5 + 3 + 5 + 7) (imm ++ rs1 ++ f3 ++ rd ++ op) i = _
  simp only [BitVec.getLsbD_append]
  repeat' split
  all_goals first | rfl | omega

theorem wordJ_bit (off : BitVec 21) (rd : RegIdx) (op : BitVec 7) (i : Nat) (hi : i < 32) :
    (wordJ off rd op).getLsbD i =
      if i < 7 then op.getLsbD i
      else if i < 12 then rd.getLsbD (i - 7)
      else if i < 20 then off.getLsbD i
      else if i < 21 then off.getLsbD 11
      else if i < 31 then off.getLsbD (i - 20)
      else off.getLsbD 20 := by
  unfold wordJ
  change BitVec.getLsbD (w := 1 + 10 + 1 + 8 + 5 + 7)
    (off.extractLsb' 20 1 ++ off.extractLsb' 1 10 ++ off.extractLsb' 11 1 ++
      off.extractLsb' 12 8 ++ rd ++ op) i = _
  simp only [BitVec.getLsbD_append, BitVec.getLsbD_extractLsb']
  interval_cases i <;> rfl

theorem fieldImmJ_bit (w : Word) (i : Nat) (hi : i < 21) :
    (fieldImmJ w).getLsbD i =
      if i < 1 then false
      else if i < 11 then w.getLsbD (i + 20)
      else if i < 12 then w.getLsbD 20
      else if i < 20 then w.getLsbD i
      else w.getLsbD 31 := by
  unfold fieldImmJ
  change BitVec.getLsbD (w := 1 + 8 + 1 + 10 + 1)
    (w.extractLsb' 31 1 ++ w.extractLsb' 12 8 ++ w.extractLsb' 20 1 ++ w.extractLsb' 21 10 ++
      0#1) i = _
  simp only [BitVec.getLsbD_append, BitVec.getLsbD_extractLsb']
  interval_cases i <;> rfl

theorem unrecognisedWord_bit (rest : BitVec 25) (op : BitVec 7) (i : Nat) :
    BitVec.getLsbD (w := 32) (rest ++ op) i =
      if i < 7 then op.getLsbD i else rest.getLsbD (i - 7) := by
  change BitVec.getLsbD (w := 25 + 7) (rest ++ op) i = _
  exact BitVec.getLsbD_append

/-! ### Fields of an I-type word -/

section FieldsI

variable (imm : BitVec 12) (rs1 : RegIdx) (f3 : BitVec 3) (rd : RegIdx) (op : BitVec 7)

@[simp] theorem fieldOpcode_wordI : fieldOpcode (wordI imm rs1 f3 rd op) = op := by
  apply BitVec.eq_of_getLsbD_eq
  intro i hi
  simp only [fieldOpcode, BitVec.getLsbD_extractLsb', wordI_bit, hi, decide_true, Bool.true_and,
    Nat.zero_add, if_true]

@[simp] theorem fieldRd_wordI : fieldRd (wordI imm rs1 f3 rd op) = rd := by
  apply BitVec.eq_of_getLsbD_eq
  intro i hi
  simp only [fieldRd, BitVec.getLsbD_extractLsb', wordI_bit, hi, decide_true, Bool.true_and]
  rw [if_neg (by omega), if_pos (by omega)]
  congr 1; omega

@[simp] theorem fieldFunct3_wordI : fieldFunct3 (wordI imm rs1 f3 rd op) = f3 := by
  apply BitVec.eq_of_getLsbD_eq
  intro i hi
  simp only [fieldFunct3, BitVec.getLsbD_extractLsb', wordI_bit, hi, decide_true, Bool.true_and]
  rw [if_neg (by omega), if_neg (by omega), if_pos (by omega)]
  congr 1; omega

@[simp] theorem fieldRs1_wordI : fieldRs1 (wordI imm rs1 f3 rd op) = rs1 := by
  apply BitVec.eq_of_getLsbD_eq
  intro i hi
  simp only [fieldRs1, BitVec.getLsbD_extractLsb', wordI_bit, hi, decide_true, Bool.true_and]
  rw [if_neg (by omega), if_neg (by omega), if_neg (by omega), if_pos (by omega)]
  congr 1; omega

@[simp] theorem fieldImmI_wordI : fieldImmI (wordI imm rs1 f3 rd op) = imm := by
  apply BitVec.eq_of_getLsbD_eq
  intro i hi
  simp only [fieldImmI, BitVec.getLsbD_extractLsb', wordI_bit, hi, decide_true, Bool.true_and]
  rw [if_neg (by omega), if_neg (by omega), if_neg (by omega), if_neg (by omega)]
  congr 1; omega

/-- The shift amount field is the low five bits of the immediate field (30_encoding.md R86). -/
theorem fieldRs2_wordI : fieldRs2 (wordI imm rs1 f3 rd op) = imm.extractLsb' 0 5 := by
  apply BitVec.eq_of_getLsbD_eq
  intro i hi
  simp only [fieldRs2, BitVec.getLsbD_extractLsb', wordI_bit, hi, decide_true, Bool.true_and]
  rw [if_neg (by omega), if_neg (by omega), if_neg (by omega), if_neg (by omega)]
  congr 1; omega

theorem fieldFunct7_wordI : fieldFunct7 (wordI imm rs1 f3 rd op) = imm.extractLsb' 5 7 := by
  apply BitVec.eq_of_getLsbD_eq
  intro i hi
  simp only [fieldFunct7, BitVec.getLsbD_extractLsb', wordI_bit, hi, decide_true, Bool.true_and]
  rw [if_neg (by omega), if_neg (by omega), if_neg (by omega), if_neg (by omega)]
  congr 1; omega

end FieldsI

theorem append_low (f7 : BitVec 7) (sh : BitVec 5) :
    BitVec.extractLsb' (n := 12) 0 5 (f7 ++ sh) = sh := by
  change BitVec.extractLsb' (n := 7 + 5) 0 5 (f7 ++ sh) = sh
  rw [BitVec.extractLsb'_append_eq_of_add_le (by omega)]
  exact BitVec.extractLsb'_eq_self

theorem append_high (f7 : BitVec 7) (sh : BitVec 5) :
    BitVec.extractLsb' (n := 12) 5 7 (f7 ++ sh) = f7 := by
  change BitVec.extractLsb' (n := 7 + 5) 5 7 (f7 ++ sh) = f7
  rw [BitVec.extractLsb'_append_eq_of_le (by omega)]
  exact BitVec.extractLsb'_eq_self

section FieldsShift

variable (f7 : BitVec 7) (sh : BitVec 5) (rs1 : RegIdx) (f3 : BitVec 3) (rd : RegIdx)

@[simp] theorem fieldOpcode_wordShift : fieldOpcode (wordShift f7 sh rs1 f3 rd) = opcodeOpImm :=
  fieldOpcode_wordI ..

@[simp] theorem fieldRd_wordShift : fieldRd (wordShift f7 sh rs1 f3 rd) = rd := fieldRd_wordI ..

@[simp] theorem fieldFunct3_wordShift : fieldFunct3 (wordShift f7 sh rs1 f3 rd) = f3 :=
  fieldFunct3_wordI ..

@[simp] theorem fieldRs1_wordShift : fieldRs1 (wordShift f7 sh rs1 f3 rd) = rs1 :=
  fieldRs1_wordI ..

@[simp] theorem fieldRs2_wordShift : fieldRs2 (wordShift f7 sh rs1 f3 rd) = sh :=
  (fieldRs2_wordI ..).trans (append_low f7 sh)

@[simp] theorem fieldFunct7_wordShift : fieldFunct7 (wordShift f7 sh rs1 f3 rd) = f7 :=
  (fieldFunct7_wordI ..).trans (append_high f7 sh)

end FieldsShift

/-! ### Fields of a J-type word -/

section FieldsJ

variable (off : BitVec 21) (rd : RegIdx) (op : BitVec 7)

@[simp] theorem fieldOpcode_wordJ : fieldOpcode (wordJ off rd op) = op := by
  apply BitVec.eq_of_getLsbD_eq
  intro i hi
  simp only [fieldOpcode, BitVec.getLsbD_extractLsb', hi, decide_true, Bool.true_and]
  rw [wordJ_bit _ _ _ _ (by omega), if_pos (by omega)]
  congr 1; omega

@[simp] theorem fieldRd_wordJ : fieldRd (wordJ off rd op) = rd := by
  apply BitVec.eq_of_getLsbD_eq
  intro i hi
  simp only [fieldRd, BitVec.getLsbD_extractLsb', hi, decide_true, Bool.true_and]
  rw [wordJ_bit _ _ _ _ (by omega), if_neg (by omega), if_pos (by omega)]
  congr 1; omega

/-- The J immediate read back is the offset, if the offset is even. -/
theorem fieldImmJ_wordJ (h : off.getLsbD 0 = false) : fieldImmJ (wordJ off rd op) = off := by
  apply BitVec.eq_of_getLsbD_eq
  intro i hi
  rw [fieldImmJ_bit _ _ hi]
  interval_cases i <;> simp only [Nat.reduceLT, ↓reduceIte, Nat.reduceAdd] <;>
    first | exact h.symm | (rw [wordJ_bit _ _ _ _ (by omega)]; rfl)

end FieldsJ

/-! ### Fields of an unrecognised word -/

theorem fieldOpcode_append (rest : BitVec 25) (op : BitVec 7) :
    fieldOpcode (rest ++ op) = op := by
  apply BitVec.eq_of_getLsbD_eq
  intro i hi
  unfold fieldOpcode
  rw [BitVec.getLsbD_extractLsb', unrecognisedWord_bit]
  simp [hi]

theorem fieldRest_append (rest : BitVec 25) (op : BitVec 7) :
    BitVec.extractLsb' (n := 32) 7 25 (rest ++ op) = rest := by
  apply BitVec.eq_of_getLsbD_eq
  intro i hi
  rw [BitVec.getLsbD_extractLsb', unrecognisedWord_bit]
  simp only [hi, decide_true, Bool.true_and]
  rw [if_neg (by omega)]
  congr 1; omega

/-! ### Words rebuilt from their fields -/

/-- A word is the I-type layout of its fields. -/
theorem wordI_fields (w : Word) :
    wordI (fieldImmI w) (fieldRs1 w) (fieldFunct3 w) (fieldRd w) (fieldOpcode w) = w := by
  apply BitVec.eq_of_getLsbD_eq
  intro i hi
  rw [wordI_bit]
  simp only [fieldImmI, fieldRs1, fieldFunct3, fieldRd, fieldOpcode, BitVec.getLsbD_extractLsb']
  repeat' split
  all_goals
    rw [decide_eq_true (by omega), Bool.true_and]
    congr 1; omega

/-- The immediate field is the shift-type field over the shift amount (R82). -/
theorem fieldImmI_split (w : Word) : (fieldFunct7 w ++ fieldRs2 w : BitVec 12) = fieldImmI w := by
  apply BitVec.eq_of_getLsbD_eq
  intro i hi
  change BitVec.getLsbD (w := 7 + 5) (w.extractLsb' 25 7 ++ w.extractLsb' 20 5) i =
    (w.extractLsb' 20 12).getLsbD i
  simp only [BitVec.getLsbD_append, BitVec.getLsbD_extractLsb']
  interval_cases i <;> rfl

/-- A word is the J-type layout of its fields. -/
theorem wordJ_fields (w : Word) : wordJ (fieldImmJ w) (fieldRd w) (fieldOpcode w) = w := by
  apply BitVec.eq_of_getLsbD_eq
  intro i hi
  rw [wordJ_bit _ _ _ _ hi]
  simp only [fieldRd, fieldOpcode, BitVec.getLsbD_extractLsb']
  interval_cases i <;> simp only [Nat.reduceLT, ↓reduceIte, Nat.reduceSub] <;>
    first | rfl | (rw [fieldImmJ_bit _ _ (by omega)]; rfl)

/-- A word is its upper 25 bits over its opcode. -/
theorem append_fields (w : Word) : (w.extractLsb' 7 25 ++ fieldOpcode w : Word) = w := by
  apply BitVec.eq_of_getLsbD_eq
  intro i hi
  rw [unrecognisedWord_bit]
  simp only [fieldOpcode, BitVec.getLsbD_extractLsb']
  split
  all_goals
    rw [decide_eq_true (by omega), Bool.true_and]
    congr 1; omega

/-! ### The masks of the opcode table -/

/-- Opcode and `funct3` kept. -/
theorem and_funct3_mask (w : Word) :
    w &&& 0x0000707f#32 = wordI 0 0 (fieldFunct3 w) 0 (fieldOpcode w) := by
  apply BitVec.eq_of_getLsbD_eq
  intro i hi
  rw [wordI_bit, BitVec.getLsbD_and]
  simp only [fieldFunct3, fieldOpcode, BitVec.getLsbD_extractLsb']
  interval_cases i <;> simp

/-- Opcode, `funct3` and `funct7` kept. -/
theorem and_funct7_mask (w : Word) :
    w &&& 0xfe00707f#32 = wordShift (fieldFunct7 w) 0 0 (fieldFunct3 w) 0 ∨
      fieldOpcode w ≠ opcodeOpImm := by
  by_cases h : fieldOpcode w = opcodeOpImm
  · left
    have e : w &&& 0xfe00707f#32 = wordI (fieldFunct7 w ++ (0 : BitVec 5)) 0 (fieldFunct3 w) 0
        (fieldOpcode w) := by
      apply BitVec.eq_of_getLsbD_eq
      intro i hi
      rw [wordI_bit, BitVec.getLsbD_and]
      change _ = if i < 7 then _ else if i < 12 then _ else if i < 15 then _ else
        if i < 20 then _ else
          BitVec.getLsbD (w := 7 + 5) (fieldFunct7 w ++ (0 : BitVec 5)) (i - 20)
      simp only [BitVec.getLsbD_append, fieldFunct7, fieldFunct3, fieldOpcode,
        BitVec.getLsbD_extractLsb']
      interval_cases i <;> simp
    rw [e, h]; rfl
  · exact .inr h

/-- Opcode kept. -/
theorem and_opcode_mask (w : Word) : w &&& 0x0000007f#32 = wordI 0 0 0 0 (fieldOpcode w) := by
  apply BitVec.eq_of_getLsbD_eq
  intro i hi
  rw [wordI_bit, BitVec.getLsbD_and]
  simp only [fieldOpcode, BitVec.getLsbD_extractLsb']
  interval_cases i <;> simp

/-- Keeping opcode, `funct3` and `funct7` leaves the opcode. -/
theorem fieldOpcode_and_funct7_mask (w : Word) :
    fieldOpcode (w &&& 0xfe00707f#32) = fieldOpcode w := by
  apply BitVec.eq_of_getLsbD_eq
  intro i hi
  simp only [fieldOpcode, BitVec.getLsbD_extractLsb', BitVec.getLsbD_and]
  interval_cases i <;> simp

/-- A row that fixes opcode and `funct3`, in terms of fields. -/
theorem matches_funct3_iff (w : Word) (f3 : BitVec 3) (op : BitVec 7) :
    w &&& 0x0000707f#32 = wordI 0 0 f3 0 op ↔ fieldFunct3 w = f3 ∧ fieldOpcode w = op := by
  rw [and_funct3_mask]
  constructor
  · intro h
    exact ⟨by simpa using congrArg fieldFunct3 h, by simpa using congrArg fieldOpcode h⟩
  · rintro ⟨rfl, rfl⟩; rfl

/-- A row that fixes only the opcode, in terms of fields. -/
theorem matches_opcode_iff (w : Word) (op : BitVec 7) :
    w &&& 0x0000007f#32 = wordI 0 0 0 0 op ↔ fieldOpcode w = op := by
  rw [and_opcode_mask]
  constructor
  · intro h; simpa using congrArg fieldOpcode h
  · rintro rfl; rfl

/-- A row that fixes opcode OP-IMM, `funct3` and `funct7`, in terms of fields. -/
theorem matches_funct7_iff (w : Word) (f7 : BitVec 7) (f3 : BitVec 3) :
    w &&& 0xfe00707f#32 = wordShift f7 0 0 f3 0 ↔
      fieldFunct7 w = f7 ∧ fieldFunct3 w = f3 ∧ fieldOpcode w = opcodeOpImm := by
  constructor
  · intro h
    have hop : fieldOpcode w = opcodeOpImm := by
      rw [← fieldOpcode_and_funct7_mask, h]; simp
    have e := (and_funct7_mask w).resolve_right (fun hn => hn hop)
    rw [e] at h
    exact ⟨by simpa using congrArg fieldFunct7 h, by simpa using congrArg fieldFunct3 h, hop⟩
  · rintro ⟨rfl, rfl, hop⟩
    exact (and_funct7_mask w).resolve_right (fun hn => hn hop)

/-! ### Bytes -/

/-- Decoding four bytes is decoding the word they make. -/
theorem decodeBytes_cons (b0 b1 b2 b3 : Byte) (rest : List Byte) :
    decodeBytes (b0 :: b1 :: b2 :: b3 :: rest) = .ok (decode (wordOfBytes b0 b1 b2 b3), rest) :=
  rfl

end Sys2Proof
end

