-- ==== Sys2Proof/Laws/State.lean ====
section
/-! SUPPORT. The small lemmas of the operations on a state: one per field per update, and reads of
registers after writes, so that no proof unfolds a record update. -/

namespace Sys2Proof.Machine

/-! ### writeReg -/

@[simp] theorem writeReg_pc (s : State) (i : RegIdx) (v : Word) : (s.writeReg i v).pc = s.pc := by
  unfold State.writeReg; split <;> rfl

@[simp] theorem writeReg_pcInc (s : State) (i : RegIdx) (v : Word) :
    (s.writeReg i v).pcInc = s.pcInc := by
  unfold State.writeReg; split <;> rfl

@[simp] theorem writeReg_imem (s : State) (i : RegIdx) (v : Word) :
    (s.writeReg i v).imem = s.imem := by
  unfold State.writeReg; split <;> rfl

@[simp] theorem writeReg_dmem (s : State) (i : RegIdx) (v : Word) :
    (s.writeReg i v).dmem = s.dmem := by
  unfold State.writeReg; split <;> rfl

@[simp] theorem writeReg_freeCount (s : State) (i : RegIdx) (v : Word) :
    (s.writeReg i v).freeCount = s.freeCount := by
  unfold State.writeReg; split <;> rfl

@[simp] theorem writeReg_zero (s : State) (v : Word) : s.writeReg 0#5 v = s := rfl

@[simp] theorem readReg_zero (s : State) : s.readReg 0#5 = 0#32 := rfl

/-- Two different registers other than 0 stand at different places. -/
theorem regPlace_inj {i j : RegIdx} (hi : i ≠ 0#5) (hj : j ≠ 0#5)
    (h : i.toNat - 1 = j.toNat - 1) : i = j := by
  have hi' : i.toNat ≠ 0 := fun e => hi (BitVec.eq_of_toNat_eq (by simpa using e))
  have hj' : j.toNat ≠ 0 := fun e => hj (BitVec.eq_of_toNat_eq (by simpa using e))
  exact BitVec.eq_of_toNat_eq (by omega)

/-- What every register reads after a write. -/
theorem readReg_writeReg (s : State) (i r : RegIdx) (v : Word) :
    (s.writeReg i v).readReg r = if r = i ∧ i ≠ 0#5 then v else s.readReg r := by
  unfold State.writeReg State.readReg
  by_cases hi : i = 0#5
  · simp [hi]
  · by_cases hr : r = 0#5
    · simp [hr, hi, Ne.symm hi]
    · by_cases hri : r = i
      · subst hri; simp [hr]
      · have hp : ¬ i.toNat - 1 = r.toNat - 1 := fun h => hri (regPlace_inj hi hr h).symm
        simp [hi, hr, hri, hp]

/-! ### advance and jumpTo -/

@[simp] theorem advance_pc (s : State) : s.advance.pc = s.pcInc := rfl
@[simp] theorem advance_pcInc (s : State) : s.advance.pcInc = s.pcInc + 4#32 := rfl
@[simp] theorem advance_regs (s : State) : s.advance.regs = s.regs := rfl
@[simp] theorem advance_imem (s : State) : s.advance.imem = s.imem := rfl
@[simp] theorem advance_dmem (s : State) : s.advance.dmem = s.dmem := rfl
@[simp] theorem advance_freeCount (s : State) : s.advance.freeCount = s.freeCount := rfl
@[simp] theorem advance_readReg (s : State) (r : RegIdx) : s.advance.readReg r = s.readReg r := rfl

@[simp] theorem jumpTo_pc (s : State) (t : Word) : (s.jumpTo t).pc = t := rfl
@[simp] theorem jumpTo_pcInc (s : State) (t : Word) : (s.jumpTo t).pcInc = t + 4#32 := rfl
@[simp] theorem jumpTo_regs (s : State) (t : Word) : (s.jumpTo t).regs = s.regs := rfl
@[simp] theorem jumpTo_imem (s : State) (t : Word) : (s.jumpTo t).imem = s.imem := rfl
@[simp] theorem jumpTo_dmem (s : State) (t : Word) : (s.jumpTo t).dmem = s.dmem := rfl
@[simp] theorem jumpTo_freeCount (s : State) (t : Word) :
    (s.jumpTo t).freeCount = s.freeCount := rfl
@[simp] theorem jumpTo_readReg (s : State) (t : Word) (r : RegIdx) :
    (s.jumpTo t).readReg r = s.readReg r := rfl

/-! ### useFree -/

@[simp] theorem useFree_pc (s : State) : s.useFree.pc = s.pc := rfl
@[simp] theorem useFree_pcInc (s : State) : s.useFree.pcInc = s.pcInc := rfl
@[simp] theorem useFree_regs (s : State) : s.useFree.regs = s.regs := rfl
@[simp] theorem useFree_imem (s : State) : s.useFree.imem = s.imem := rfl
@[simp] theorem useFree_dmem (s : State) : s.useFree.dmem = s.dmem := rfl
@[simp] theorem useFree_freeCount (s : State) : s.useFree.freeCount = s.freeCount + 1 := rfl
@[simp] theorem useFree_readReg (s : State) (r : RegIdx) : s.useFree.readReg r = s.readReg r := rfl

/-! ### The environment's operations -/

@[simp] theorem placeInstrWord_pc (s : State) (wa : WordAddr) (w : Word) :
    (s.placeInstrWord wa w).pc = s.pc := rfl
@[simp] theorem placeInstrWord_pcInc (s : State) (wa : WordAddr) (w : Word) :
    (s.placeInstrWord wa w).pcInc = s.pcInc := rfl
@[simp] theorem placeInstrWord_regs (s : State) (wa : WordAddr) (w : Word) :
    (s.placeInstrWord wa w).regs = s.regs := rfl
@[simp] theorem placeInstrWord_imem (s : State) (wa : WordAddr) (w : Word) :
    (s.placeInstrWord wa w).imem = Memory.placeWord wa w s.imem := rfl
@[simp] theorem placeInstrWord_dmem (s : State) (wa : WordAddr) (w : Word) :
    (s.placeInstrWord wa w).dmem = s.dmem := rfl
@[simp] theorem placeInstrWord_freeCount (s : State) (wa : WordAddr) (w : Word) :
    (s.placeInstrWord wa w).freeCount = s.freeCount := rfl

@[simp] theorem placeDataWord_pc (s : State) (wa : WordAddr) (w : Word) :
    (s.placeDataWord wa w).pc = s.pc := rfl
@[simp] theorem placeDataWord_pcInc (s : State) (wa : WordAddr) (w : Word) :
    (s.placeDataWord wa w).pcInc = s.pcInc := rfl
@[simp] theorem placeDataWord_regs (s : State) (wa : WordAddr) (w : Word) :
    (s.placeDataWord wa w).regs = s.regs := rfl
@[simp] theorem placeDataWord_imem (s : State) (wa : WordAddr) (w : Word) :
    (s.placeDataWord wa w).imem = s.imem := rfl
@[simp] theorem placeDataWord_dmem (s : State) (wa : WordAddr) (w : Word) :
    (s.placeDataWord wa w).dmem = Memory.placeWord wa w s.dmem := rfl
@[simp] theorem placeDataWord_freeCount (s : State) (wa : WordAddr) (w : Word) :
    (s.placeDataWord wa w).freeCount = s.freeCount := rfl

@[simp] theorem assertReset_pc (s : State) : s.assertReset.pc = 0#32 := rfl
@[simp] theorem assertReset_pcInc (s : State) : s.assertReset.pcInc = 4#32 := rfl
@[simp] theorem assertReset_regs (s : State) : s.assertReset.regs = State.reset.regs := rfl
@[simp] theorem assertReset_imem (s : State) : s.assertReset.imem = s.imem := rfl
@[simp] theorem assertReset_dmem (s : State) : s.assertReset.dmem = s.dmem := rfl
@[simp] theorem assertReset_freeCount (s : State) : s.assertReset.freeCount = s.freeCount := rfl

/-! ### Reads of memory depend on the memory alone -/

theorem instrByte_congr {s t : State} (h : t.imem = s.imem) (a : Nat) :
    t.instrByte a = s.instrByte a := by
  simp [State.instrByte, h]

theorem dataByte_congr {s t : State} (h : t.dmem = s.dmem) (a : Nat) :
    t.dataByte a = s.dataByte a := by
  simp [State.dataByte, h]

/-- Two states with the same registers, counters and memories are the same state. -/
theorem state_ext {s t : State} (hr : ∀ r, s.readReg r = t.readReg r) (hpc : s.pc = t.pc)
    (hinc : s.pcInc = t.pcInc) (hi : s.imem = t.imem) (hd : s.dmem = t.dmem)
    (hf : s.freeCount = t.freeCount) : s = t := by
  have hregs : s.regs = t.regs := by
    apply Vector.ext
    intro k hk
    have h := hr (BitVec.ofNat 5 (k + 1))
    have hn : (BitVec.ofNat 5 (k + 1)).toNat = k + 1 := by
      simp [BitVec.toNat_ofNat]; omega
    have h0 : BitVec.ofNat 5 (k + 1) ≠ 0#5 := by
      intro e
      have := congrArg BitVec.toNat e
      rw [hn] at this
      simp at this
    simpa [State.readReg, h0, hn] using h
  cases s; cases t; simp_all

end Sys2Proof.Machine
end

