-- ==== Sys2Proof/Laws/Memory.lean ====
section
/-! SUPPORT. The laws of a memory: a read after a write, and the canonical form, which every
operation on a memory keeps and under which equal memories are equal data. -/

namespace Sys2Proof.Machine

@[simp] theorem lookup_nil (a : Nat) : Memory.lookup a [] = none := rfl

theorem lookup_cons (a : Nat) (c : Host.Cell) (m : Memory) :
    Memory.lookup a (c :: m) = if c.1 = a then some c.2 else Memory.lookup a m := rfl

/-- An address below every listed one is not listed. -/
theorem lookup_eq_none_of_lt {lo a : Nat} {m : Memory} (h : Memory.risingFrom lo m = true)
    (ha : a < lo) : Memory.lookup a m = none := by
  induction m generalizing lo with
  | nil => rfl
  | cons c m ih =>
    simp only [Memory.risingFrom, Bool.and_eq_true, decide_eq_true_eq] at h
    rw [lookup_cons, if_neg (by omega)]
    exact ih h.2 (by omega)

/-- A read after a write to the same address gives the byte written. -/
theorem lookup_write_self (a : Nat) (b : Byte) (m : Memory) :
    Memory.lookup a (Memory.write a b m) = some b := by
  induction m with
  | nil => simp [Memory.write, lookup_cons]
  | cons c m ih =>
    unfold Memory.write
    split
    · simp [lookup_cons]
    · split
      · simp [lookup_cons]
      · next h1 h2 => simp [lookup_cons, Ne.symm h2, ih]

/-- A write leaves every other address alone. -/
theorem lookup_write_ne {a a' : Nat} (h : a' ≠ a) (b : Byte) (m : Memory) :
    Memory.lookup a' (Memory.write a b m) = Memory.lookup a' m := by
  induction m with
  | nil => simp [Memory.write, lookup_cons, Ne.symm h]
  | cons c m ih =>
    unfold Memory.write
    split
    · simp [lookup_cons, Ne.symm h]
    · split
      · next h1 h2 => simp [lookup_cons, ← h2, Ne.symm h]
      · simp [lookup_cons, ih]

theorem byteAt_write (p : Nat → Byte) (a a' : Nat) (b : Byte) (m : Memory) :
    Memory.byteAt p (Memory.write a b m) a' = if a' = a then b else Memory.byteAt p m a' := by
  unfold Memory.byteAt
  by_cases h : a' = a
  · subst h; simp [lookup_write_self]
  · simp [h, lookup_write_ne h]

/-- A write keeps the canonical form from any bound not above its address. -/
theorem risingFrom_write {lo a : Nat} (b : Byte) {m : Memory} (hlo : lo ≤ a) (ha : a < 2 ^ 32)
    (h : Memory.risingFrom lo m = true) : Memory.risingFrom lo (Memory.write a b m) = true := by
  induction m generalizing lo with
  | nil => simp [Memory.write, Memory.risingFrom]; omega
  | cons c m ih =>
    simp only [Memory.risingFrom, Bool.and_eq_true, decide_eq_true_eq] at h
    unfold Memory.write
    split
    · simp only [Memory.risingFrom, Bool.and_eq_true, decide_eq_true_eq]
      exact ⟨⟨hlo, ha⟩, ⟨by omega, h.1.2⟩, h.2⟩
    · split
      · next h1 h2 =>
        simp only [Memory.risingFrom, Bool.and_eq_true, decide_eq_true_eq]
        exact ⟨⟨hlo, ha⟩, h2 ▸ h.2⟩
      · simp only [Memory.risingFrom, Bool.and_eq_true, decide_eq_true_eq]
        exact ⟨h.1, ih (by omega) h.2⟩

/-- A write keeps a memory well formed. -/
theorem wf_write {a : Nat} (b : Byte) {m : Memory} (ha : a < 2 ^ 32)
    (h : Memory.wf m = true) : Memory.wf (Memory.write a b m) = true :=
  risingFrom_write b (Nat.zero_le a) ha h

/-- Placing a word keeps a memory well formed. -/
theorem wf_placeWord (wa : WordAddr) (w : Word) {m : Memory} (h : Memory.wf m = true) :
    Memory.wf (Memory.placeWord wa w m) = true := by
  have := wa.isLt
  unfold Memory.placeWord
  exact wf_write _ (by omega) (wf_write _ (by omega) (wf_write _ (by omega)
    (wf_write _ (by omega) h)))

/-- Nothing listed is a well-formed memory. -/
theorem wf_nil : Memory.wf [] = true := rfl

/-- The first cell of a canonical list is found at its address. -/
theorem lookup_head (c : Host.Cell) (m : Memory) : Memory.lookup c.1 (c :: m) = some c.2 := by
  simp [lookup_cons]

/-- Under the canonical form, memories that list the same bytes are equal data. -/
theorem risingFrom_ext {lo lo' : Nat} {m m' : Memory} (h : Memory.risingFrom lo m = true)
    (h' : Memory.risingFrom lo' m' = true)
    (heq : ∀ a, Memory.lookup a m = Memory.lookup a m') : m = m' := by
  induction m generalizing lo lo' m' with
  | nil =>
    cases m' with
    | nil => rfl
    | cons c' m' =>
      have := heq c'.1
      rw [lookup_head] at this
      cases this
  | cons c m ih =>
    cases m' with
    | nil =>
      have := heq c.1
      rw [lookup_head] at this
      cases this
    | cons c' m' =>
      simp only [Memory.risingFrom, Bool.and_eq_true, decide_eq_true_eq] at h h'
      have hlt : ¬ c.1 < c'.1 := by
        intro hlt
        have e := heq c.1
        rw [lookup_head, lookup_cons, if_neg (by omega),
          lookup_eq_none_of_lt h'.2 (by omega)] at e
        cases e
      have hgt : ¬ c'.1 < c.1 := by
        intro hgt
        have e := heq c'.1
        rw [lookup_head, lookup_cons, if_neg (by omega),
          lookup_eq_none_of_lt h.2 (by omega)] at e
        cases e
      have h1 : c.1 = c'.1 := by omega
      have h2 : c.2 = c'.2 := by
        have e := heq c.1
        rw [lookup_head, h1, lookup_head] at e
        exact Option.some.inj e
      have hc : c = c' := Prod.ext h1 h2
      subst hc
      congr 1
      refine ih h.2 h'.2 fun a => ?_
      by_cases ha : a < c.1 + 1
      · rw [lookup_eq_none_of_lt h.2 ha, lookup_eq_none_of_lt h'.2 ha]
      · have e := heq a
        rwa [lookup_cons, lookup_cons, if_neg (by omega), if_neg (by omega)] at e

theorem wf_ext {m m' : Memory} (h : Memory.wf m = true) (h' : Memory.wf m' = true)
    (heq : ∀ a, Memory.lookup a m = Memory.lookup a m') : m = m' :=
  risingFrom_ext h h' heq

/-! ### Bytes and words -/

/-- The four bytes of a word, put together again, are the word. -/
theorem wordOfBytes_byteOfWord (w : Word) :
    wordOfBytes (byteOfWord w 0) (byteOfWord w 1) (byteOfWord w 2) (byteOfWord w 3) = w := by
  unfold wordOfBytes byteOfWord
  apply BitVec.eq_of_getLsbD_eq
  intro i hi
  change BitVec.getLsbD (w := 8 + 8 + 8 + 8)
    (w.extractLsb' (8 * 3) 8 ++ w.extractLsb' (8 * 2) 8 ++ w.extractLsb' (8 * 1) 8 ++
      w.extractLsb' (8 * 0) 8) i = _
  simp only [BitVec.getLsbD_append, BitVec.getLsbD_extractLsb']
  repeat' split
  all_goals first
    | (simp only [decide_eq_true_eq.mpr ‹_›, Bool.true_and]; congr 1; omega)
    | (have hk : decide (i - 8 - 8 - 8 < 8) = true := decide_eq_true (by omega)
       simp only [hk, Bool.true_and]; congr 1; omega)

/-- What a byte reads as after a word is placed. -/
theorem byteAt_placeWord (p : Nat → Byte) (wa : WordAddr) (w : Word) (m : Memory) (a : Nat) :
    Memory.byteAt p (Memory.placeWord wa w m) a =
      if a = 4 * wa.toNat + 3 then byteOfWord w 3
      else if a = 4 * wa.toNat + 2 then byteOfWord w 2
      else if a = 4 * wa.toNat + 1 then byteOfWord w 1
      else if a = 4 * wa.toNat then byteOfWord w 0
      else Memory.byteAt p m a := by
  unfold Memory.placeWord
  simp only [byteAt_write]

/-- A word read at the address a word was placed at is that word. -/
theorem wordAt_placeWord_self (p : Nat → Byte) (wa : WordAddr) (w : Word) (m : Memory) :
    Memory.wordAt p (Memory.placeWord wa w m) wa = w := by
  unfold Memory.wordAt
  simp only [byteAt_placeWord]
  simp [wordOfBytes_byteOfWord]

/-- A word read at any other address is what it was. -/
theorem wordAt_placeWord_ne (p : Nat → Byte) {wa wb : WordAddr} (h : wb ≠ wa) (w : Word)
    (m : Memory) :
    Memory.wordAt p (Memory.placeWord wa w m) wb = Memory.wordAt p m wb := by
  have hn : wb.toNat ≠ wa.toNat := fun e => h (BitVec.eq_of_toNat_eq e)
  unfold Memory.wordAt
  simp only [byteAt_placeWord]
  congr 1 <;> (repeat rw [if_neg (by omega)])

@[simp] theorem fetchWord_withFetch (s : State) (w : Word) :
    (s.placeInstrWord (wordAddr s.pc) w).fetchWord = w := by
  simp [State.fetchWord, State.instrWord, wordAt_placeWord_self]

end Sys2Proof.Machine
end

