-- ==== Sys2Proof/Laws/Meanings.lean ====
section
/-! SUPPORT. What each shared operation of the meanings can do, said once, and the inversion of
`exec`: every proof about a step goes through these. -/

namespace Sys2Proof.Machine

/-! ### The effect of the two shapes of a tick -/

theorem sameMemory_of_eq {s t : State} (hi : t.imem = s.imem) (hd : t.dmem = s.dmem) :
    SameMemory s t :=
  ⟨fun a => instrByte_congr hi a, fun a => dataByte_congr hd a⟩

/-- A register write and an advance. -/
theorem effect_writeReg_advance (s : State) (rd : RegIdx) (v : Word) :
    Effect rd v s.pcInc s ((s.writeReg rd v).advance) :=
  ⟨fun r => readReg_writeReg s rd r v, by simp, by simp, sameMemory_of_eq (by simp) (by simp),
    by simp⟩

/-- A register write and a jump. -/
theorem effect_writeReg_jumpTo (s : State) (rd : RegIdx) (v target : Word) :
    Effect rd v target s ((s.writeReg rd v).jumpTo target) :=
  ⟨fun r => readReg_writeReg s rd r v, rfl, rfl, sameMemory_of_eq (by simp) (by simp), by simp⟩

/-- An advance alone. -/
theorem noRegEffect_advance (s : State) : NoRegEffect s.pcInc s s.advance :=
  ⟨fun _ => rfl, rfl, rfl, sameMemory_of_eq rfl rfl, rfl⟩

/-- In a linked state the advance goes to `pc + 4`. -/
theorem Effect.of_linked {rd : RegIdx} {v : Word} {s t : State} (h : s.Linked)
    (he : Effect rd v s.pcInc s t) : Effect rd v (s.pc + 4#32) s t := by
  rwa [← h]

/-- Register 0 as destination: no register changes. -/
theorem Effect.noReg {v target : Word} {s t : State} (he : Effect 0#5 v target s t) :
    NoRegEffect target s t :=
  ⟨fun r => by simpa using he.1 r, he.2⟩

/-! ### The shared operations -/

/-- The register-immediate shape always completes (43_op_imm.md R230). -/
theorem opImm_effect (op : AluOp) (a : Word) (rd rs1 : RegIdx) {s : State} (h : s.Linked) :
    ∃ t, opImm op a rd rs1 s = .next t ∧
      Effect rd (alu op a (s.readReg rs1)) (s.pc + 4#32) s t :=
  ⟨_, rfl, (effect_writeReg_advance s rd _).of_linked h⟩

/-- Under the default policy a load always completes (45_load.md R270, R276). -/
theorem loadInto_ignoreLowBits (width : Width) (signed : Bool) (rd rs1 : RegIdx)
    (imm : BitVec 12) (s : State) :
    loadInto .ignoreLowBits width signed rd rs1 imm s =
      .next ((s.writeReg rd (s.memRead (s.effectiveAddr rs1 imm) width signed)).advance) := by
  simp [loadInto]

/-- Under the policy `refuse` a misaligned load has no meaning. -/
theorem loadInto_refuse_misaligned {width : Width} {rs1 : RegIdx} {imm : BitVec 12} {s : State}
    (h : misaligned width (s.effectiveAddr rs1 imm) = true) (signed : Bool) (rd : RegIdx) :
    loadInto .refuse width signed rd rs1 imm s = .refused .misalignedLoad := by
  simp [loadInto, h]

/-- An aligned load is the same under both policies. -/
theorem loadInto_aligned {width : Width} {rs1 : RegIdx} {imm : BitVec 12} {s : State}
    (h : misaligned width (s.effectiveAddr rs1 imm) = false) (p : MisalignedLoadPolicy)
    (signed : Bool) (rd : RegIdx) :
    loadInto p width signed rd rs1 imm s = loadInto .ignoreLowBits width signed rd rs1 imm s := by
  simp [loadInto, h]

/-- The load shape completes on this machine. -/
theorem load_effect (width : Width) (signed : Bool) (rd rs1 : RegIdx) (imm : BitVec 12)
    {s : State} (h : s.Linked) :
    ∃ t, loadInto Config.misalignedLoadPolicy width signed rd rs1 imm s = .next t ∧
      Effect rd (s.memRead (s.effectiveAddr rs1 imm) width signed) (s.pc + 4#32) s t :=
  ⟨_, loadInto_ignoreLowBits width signed rd rs1 imm s,
    (effect_writeReg_advance s rd _).of_linked h⟩

/-- The link value is `pc_inc`, the target `imm_j + pc` (44_jal.md R260). -/
theorem execJal_effect (rd : RegIdx) (offset : BitVec 21) (s : State) :
    ∃ t, execJal rd offset s = .next t ∧
      Effect rd s.pcInc (alu .add (immJ offset) s.pc) s t :=
  ⟨_, rfl, effect_writeReg_jumpTo s rd _ _⟩

/-! ### What a step can do -/

/-- The four shapes of a next state: a register takes a value and `pc` advances; a JAL; a reserved
word, whose value is free; or only `pc` advances. -/
theorem exec_next {i : Instr} {s t : State} (h : exec i s = .next t) :
    (∃ rd v, t = (s.writeReg rd v).advance) ∨
    (∃ rd offset, i = .jal rd offset ∧
      t = (s.writeReg rd s.pcInc).jumpTo (alu .add (immJ offset) s.pc)) ∨
    (∃ rd, t = (s.writeReg rd s.nextFree).useFree.advance) ∨
    t = s.advance := by
  have hn {a b : State} (e : (Host.Outcome.next a : Host.Outcome State Fault Refusal) = .next b) :
      b = a := (Host.Outcome.next.inj e).symm
  have hl {p w sg rd rs1 imm} (e : loadInto p w sg rd rs1 imm s = .next t) :
      ∃ rd v, t = (s.writeReg rd v).advance := by
    unfold loadInto at e
    split at e
    · cases e
    · exact ⟨_, _, hn e⟩
  cases i with
  | addi => exact .inl ⟨_, _, hn h⟩
  | slli => exact .inl ⟨_, _, hn h⟩
  | xori => exact .inl ⟨_, _, hn h⟩
  | srli => exact .inl ⟨_, _, hn h⟩
  | srai => exact .inl ⟨_, _, hn h⟩
  | ori => exact .inl ⟨_, _, hn h⟩
  | andi => exact .inl ⟨_, _, hn h⟩
  | jal => exact .inr (.inl ⟨_, _, rfl, hn h⟩)
  | lb rd rs1 imm => exact .inl (@hl Config.misalignedLoadPolicy .byte true rd rs1 imm h)
  | lh rd rs1 imm => exact .inl (@hl Config.misalignedLoadPolicy .half true rd rs1 imm h)
  | lw rd rs1 imm => exact .inl (@hl Config.misalignedLoadPolicy .word true rd rs1 imm h)
  | lbu rd rs1 imm => exact .inl (@hl Config.misalignedLoadPolicy .byte false rd rs1 imm h)
  | lhu rd rs1 imm => exact .inl (@hl Config.misalignedLoadPolicy .half false rd rs1 imm h)
  | reservedOpImm010 => exact .inr (.inr (.inl ⟨_, hn h⟩))
  | reservedOpImm011 => exact .inr (.inr (.inl ⟨_, hn h⟩))
  | reservedShiftRightType => exact .inr (.inr (.inl ⟨_, hn h⟩))
  | reservedLoad011 => exact .inr (.inr (.inl ⟨_, hn h⟩))
  | reservedLoad110 => exact .inr (.inr (.inl ⟨_, hn h⟩))
  | reservedLoad111 => exact .inr (.inr (.inl ⟨_, hn h⟩))
  | unrecognised => exact .inr (.inr (.inr (hn h)))

/-- The effect of a reserved word: like any register write, and one free value is used. -/
theorem reservedWord_effect (rd : RegIdx) {s : State} (h : s.Linked) :
    ∃ t, reservedWord rd s = .next t ∧ WritesReg rd s.nextFree s t ∧ t.pc = s.pc + 4#32 ∧
      t.pcInc = s.pc + 4#32 + 4#32 ∧ SameMemory s t ∧ t.freeCount = s.freeCount + 1 := by
  have hp : s.pcInc = s.pc + 4#32 := h
  refine ⟨_, rfl, fun r => ?_, ?_, ?_, sameMemory_of_eq ?_ ?_, ?_⟩
  · simp [readReg_writeReg]
  · simpa using hp
  · simp [hp]
  all_goals simp

end Sys2Proof.Machine
end

