-- ==== Sys2Proof/Laws/PerInstr.lean ====
section
/-! SUPPORT. Statements about every instruction as syntax, one lemma per constructor. The family
TableRow: the encoded word of a well-formed instruction is caught by the instruction's own row of
the opcode table, and by no row before it (30_encoding.md R100). -/

namespace Sys2Proof.Laws.TableRow

/-- The first row that matches the encoded word is the instruction's. -/
def Statement (i : Instr) : Prop :=
  i.wellFormed = true → firstMatch (encode i) opcodeRows = some i.mnemonic

theorem opcodes_ne : opcodeLoad ≠ opcodeJal ∧ opcodeLoad ≠ opcodeOpImm ∧ opcodeJal ≠ opcodeOpImm ∧
    opcodeOpImm ≠ opcodeLoad ∧ opcodeOpImm ≠ opcodeJal ∧ opcodeJal ≠ opcodeLoad := by decide

/-- The first matching row in terms of the word's fields: the rows' masks, unfolded once. -/
theorem firstMatch_fields (w : Word) :
    firstMatch w opcodeRows =
      if fieldFunct3 w = 0 ∧ fieldOpcode w = opcodeOpImm then some "ADDI"
      else if fieldFunct3 w = 1 ∧ fieldOpcode w = opcodeOpImm then some "SLLI"
      else if fieldFunct3 w = 4 ∧ fieldOpcode w = opcodeOpImm then some "XORI"
      else if fieldFunct7 w = 0 ∧ fieldFunct3 w = 5 ∧ fieldOpcode w = opcodeOpImm then some "SRLI"
      else if fieldFunct7 w = 0x20 ∧ fieldFunct3 w = 5 ∧ fieldOpcode w = opcodeOpImm then some "SRAI"
      else if fieldFunct3 w = 6 ∧ fieldOpcode w = opcodeOpImm then some "ORI"
      else if fieldFunct3 w = 7 ∧ fieldOpcode w = opcodeOpImm then some "ANDI"
      else if fieldOpcode w = opcodeJal then some "JAL"
      else if fieldFunct3 w = 0 ∧ fieldOpcode w = opcodeLoad then some "LB"
      else if fieldFunct3 w = 1 ∧ fieldOpcode w = opcodeLoad then some "LH"
      else if fieldFunct3 w = 2 ∧ fieldOpcode w = opcodeLoad then some "LW"
      else if fieldFunct3 w = 4 ∧ fieldOpcode w = opcodeLoad then some "LBU"
      else if fieldFunct3 w = 5 ∧ fieldOpcode w = opcodeLoad then some "LHU"
      else if fieldFunct3 w = 2 ∧ fieldOpcode w = opcodeOpImm then some "reserved.op-imm.funct3-010"
      else if fieldFunct3 w = 3 ∧ fieldOpcode w = opcodeOpImm then some "reserved.op-imm.funct3-011"
      else if fieldFunct3 w = 5 ∧ fieldOpcode w = opcodeOpImm then
        some "reserved.op-imm.shift-right-type"
      else if fieldFunct3 w = 3 ∧ fieldOpcode w = opcodeLoad then some "reserved.load.funct3-011"
      else if fieldFunct3 w = 6 ∧ fieldOpcode w = opcodeLoad then some "reserved.load.funct3-110"
      else if fieldFunct3 w = 7 ∧ fieldOpcode w = opcodeLoad then some "reserved.load.funct3-111"
      else some "unrecognised" := by
  have hADDI : w &&& 0x0000707f#32 = 0x00000013#32 ↔ _ := matches_funct3_iff w 0 opcodeOpImm
  have hSLLI : w &&& 0x0000707f#32 = 0x00001013#32 ↔ _ := matches_funct3_iff w 1 opcodeOpImm
  have hXORI : w &&& 0x0000707f#32 = 0x00004013#32 ↔ _ := matches_funct3_iff w 4 opcodeOpImm
  have hORI : w &&& 0x0000707f#32 = 0x00006013#32 ↔ _ := matches_funct3_iff w 6 opcodeOpImm
  have hANDI : w &&& 0x0000707f#32 = 0x00007013#32 ↔ _ := matches_funct3_iff w 7 opcodeOpImm
  have hLB : w &&& 0x0000707f#32 = 0x00000003#32 ↔ _ := matches_funct3_iff w 0 opcodeLoad
  have hLH : w &&& 0x0000707f#32 = 0x00001003#32 ↔ _ := matches_funct3_iff w 1 opcodeLoad
  have hLW : w &&& 0x0000707f#32 = 0x00002003#32 ↔ _ := matches_funct3_iff w 2 opcodeLoad
  have hLBU : w &&& 0x0000707f#32 = 0x00004003#32 ↔ _ := matches_funct3_iff w 4 opcodeLoad
  have hLHU : w &&& 0x0000707f#32 = 0x00005003#32 ↔ _ := matches_funct3_iff w 5 opcodeLoad
  have hR2 : w &&& 0x0000707f#32 = 0x00002013#32 ↔ _ := matches_funct3_iff w 2 opcodeOpImm
  have hR3 : w &&& 0x0000707f#32 = 0x00003013#32 ↔ _ := matches_funct3_iff w 3 opcodeOpImm
  have hR5 : w &&& 0x0000707f#32 = 0x00005013#32 ↔ _ := matches_funct3_iff w 5 opcodeOpImm
  have hL3 : w &&& 0x0000707f#32 = 0x00003003#32 ↔ _ := matches_funct3_iff w 3 opcodeLoad
  have hL6 : w &&& 0x0000707f#32 = 0x00006003#32 ↔ _ := matches_funct3_iff w 6 opcodeLoad
  have hL7 : w &&& 0x0000707f#32 = 0x00007003#32 ↔ _ := matches_funct3_iff w 7 opcodeLoad
  have hSRLI : w &&& 0xfe00707f#32 = 0x00005013#32 ↔ _ := matches_funct7_iff w 0 5
  have hSRAI : w &&& 0xfe00707f#32 = 0x40005013#32 ↔ _ := matches_funct7_iff w 0x20 5
  have hJAL : w &&& 0x0000007f#32 = 0x0000006f#32 ↔ _ := matches_opcode_iff w opcodeJal
  unfold opcodeRows
  simp only [firstMatch, BitVec.and_zero, if_true,
    hADDI, hSLLI, hXORI, hORI, hANDI, hLB, hLH, hLW, hLBU, hLHU,
    hR2, hR3, hR5, hL3, hL6, hL7, hSRLI, hSRAI, hJAL]

theorem addi (rd rs1 : RegIdx) (imm : BitVec 12) : Statement (.addi rd rs1 imm) := by
  intro _; rw [firstMatch_fields]; simp [encode, Instr.mnemonic]

theorem slli (rd rs1 : RegIdx) (sh : BitVec 5) (ig : BitVec 7) :
    Statement (.slli rd rs1 sh ig) := by
  intro _; rw [firstMatch_fields]; simp [encode, Instr.mnemonic]

theorem xori (rd rs1 : RegIdx) (imm : BitVec 12) : Statement (.xori rd rs1 imm) := by
  intro _; rw [firstMatch_fields]; simp [encode, Instr.mnemonic]

theorem srli (rd rs1 : RegIdx) (sh : BitVec 5) : Statement (.srli rd rs1 sh) := by
  intro _; rw [firstMatch_fields]; simp [encode, Instr.mnemonic]

theorem srai (rd rs1 : RegIdx) (sh : BitVec 5) : Statement (.srai rd rs1 sh) := by
  intro _; rw [firstMatch_fields]; simp [encode, Instr.mnemonic]

theorem ori (rd rs1 : RegIdx) (imm : BitVec 12) : Statement (.ori rd rs1 imm) := by
  intro _; rw [firstMatch_fields]; simp [encode, Instr.mnemonic]

theorem andi (rd rs1 : RegIdx) (imm : BitVec 12) : Statement (.andi rd rs1 imm) := by
  intro _; rw [firstMatch_fields]; simp [encode, Instr.mnemonic]

theorem jal (rd : RegIdx) (off : BitVec 21) : Statement (.jal rd off) := by
  intro _; rw [firstMatch_fields]; simp [encode, Instr.mnemonic, opcodes_ne]

theorem lb (rd rs1 : RegIdx) (imm : BitVec 12) : Statement (.lb rd rs1 imm) := by
  intro _; rw [firstMatch_fields]; simp [encode, Instr.mnemonic, opcodes_ne]

theorem lh (rd rs1 : RegIdx) (imm : BitVec 12) : Statement (.lh rd rs1 imm) := by
  intro _; rw [firstMatch_fields]; simp [encode, Instr.mnemonic, opcodes_ne]

theorem lw (rd rs1 : RegIdx) (imm : BitVec 12) : Statement (.lw rd rs1 imm) := by
  intro _; rw [firstMatch_fields]; simp [encode, Instr.mnemonic, opcodes_ne]

theorem lbu (rd rs1 : RegIdx) (imm : BitVec 12) : Statement (.lbu rd rs1 imm) := by
  intro _; rw [firstMatch_fields]; simp [encode, Instr.mnemonic, opcodes_ne]

theorem lhu (rd rs1 : RegIdx) (imm : BitVec 12) : Statement (.lhu rd rs1 imm) := by
  intro _; rw [firstMatch_fields]; simp [encode, Instr.mnemonic, opcodes_ne]

theorem reservedOpImm010 (rd rs1 : RegIdx) (imm : BitVec 12) :
    Statement (.reservedOpImm010 rd rs1 imm) := by
  intro _; rw [firstMatch_fields]; simp [encode, Instr.mnemonic, opcodes_ne]

theorem reservedOpImm011 (rd rs1 : RegIdx) (imm : BitVec 12) :
    Statement (.reservedOpImm011 rd rs1 imm) := by
  intro _; rw [firstMatch_fields]; simp [encode, Instr.mnemonic, opcodes_ne]

theorem reservedShiftRightType (rd rs1 : RegIdx) (sh : BitVec 5) (f7 : BitVec 7) :
    Statement (.reservedShiftRightType rd rs1 sh f7) := by
  intro h
  simp only [Instr.wellFormed, Bool.and_eq_true, bne_iff_ne] at h
  rw [firstMatch_fields]
  simp [encode, Instr.mnemonic, opcodes_ne, h]

theorem reservedLoad011 (rd rs1 : RegIdx) (imm : BitVec 12) :
    Statement (.reservedLoad011 rd rs1 imm) := by
  intro _; rw [firstMatch_fields]; simp [encode, Instr.mnemonic, opcodes_ne]

theorem reservedLoad110 (rd rs1 : RegIdx) (imm : BitVec 12) :
    Statement (.reservedLoad110 rd rs1 imm) := by
  intro _; rw [firstMatch_fields]; simp [encode, Instr.mnemonic, opcodes_ne]

theorem reservedLoad111 (rd rs1 : RegIdx) (imm : BitVec 12) :
    Statement (.reservedLoad111 rd rs1 imm) := by
  intro _; rw [firstMatch_fields]; simp [encode, Instr.mnemonic, opcodes_ne]

theorem unrecognised (op : BitVec 7) (rest : BitVec 25) : Statement (.unrecognised op rest) := by
  intro h
  simp only [Instr.wellFormed, isRecognisedOpcode, Bool.not_eq_true', Bool.or_eq_false_iff,
    beq_eq_false_iff_ne] at h
  rw [firstMatch_fields]
  simp [encode, fieldOpcode_append, Instr.mnemonic, h]

end Sys2Proof.Laws.TableRow
end

