-- ==== Sys2Proof/Tests/Slice0.lean ====
section
/-! SUPPORT. Tests: each expected result stands in 95_test_vectors.md or follows from the rule its
comment names. Then a witness for the hypotheses of each statement that has any. -/

namespace Sys2Proof.Tests

open Sys2Proof.Machine

/-! ### Well-formedness: an ill-formed term for each check -/

theorem test_wf_odd_jal_refused : (Instr.jal 1 0x000001).wellFormed = false := by decide
theorem test_wf_even_jal : (Instr.jal 1 0x1ffffe).wellFormed = true := by decide
theorem test_wf_shift_type_srli_refused :
    (Instr.reservedShiftRightType 1 2 3 0b0000000).wellFormed = false := by decide
theorem test_wf_shift_type_srai_refused :
    (Instr.reservedShiftRightType 1 2 3 0b0100000).wellFormed = false := by decide
theorem test_wf_unrecognised_load_refused :
    (Instr.unrecognised 0b0000011 0).wellFormed = false := by decide
theorem test_wf_unrecognised_opImm_refused :
    (Instr.unrecognised 0b0010011 0).wellFormed = false := by decide
theorem test_wf_unrecognised_jal_refused :
    (Instr.unrecognised 0b1101111 0).wellFormed = false := by decide

/-! ### Decoding: for every constructor a word written field by field from the encoding of it
(30_encoding.md R82, R83, R90 to R94, R96) -/

theorem test_decode_addi :
    decode (0b000000000001#12 ++ 0b00010#5 ++ 0b000#3 ++ 0b00010#5 ++ 0b0010011#7) =
      .addi 2 2 1 := by decide
theorem test_decode_slli :
    decode (0b1111111#7 ++ 0b00001#5 ++ 0b00001#5 ++ 0b001#3 ++ 0b00011#5 ++ 0b0010011#7) =
      .slli 3 1 1 0x7f := by decide
theorem test_decode_xori :
    decode (0b011100001111#12 ++ 0b00001#5 ++ 0b100#3 ++ 0b00011#5 ++ 0b0010011#7) =
      .xori 3 1 0x70f := by decide
theorem test_decode_srli :
    decode (0b0000000#7 ++ 0b00100#5 ++ 0b00001#5 ++ 0b101#3 ++ 0b00011#5 ++ 0b0010011#7) =
      .srli 3 1 4 := by decide
theorem test_decode_srai :
    decode (0b0100000#7 ++ 0b00100#5 ++ 0b00001#5 ++ 0b101#3 ++ 0b00011#5 ++ 0b0010011#7) =
      .srai 3 1 4 := by decide
theorem test_decode_ori :
    decode (0b100000000000#12 ++ 0b00001#5 ++ 0b110#3 ++ 0b00011#5 ++ 0b0010011#7) =
      .ori 3 1 0x800 := by decide
theorem test_decode_andi :
    decode (0b111111110000#12 ++ 0b00001#5 ++ 0b111#3 ++ 0b00011#5 ++ 0b0010011#7) =
      .andi 3 1 0xff0 := by decide
/-- 95_test_vectors.md 2.5: offset 349524 = 0x55554, word 0x5545506f, here with `rd` = x5. -/
theorem test_decode_jal :
    decode (0b0#1 ++ 0b1010101010#10 ++ 0b0#1 ++ 0b01010101#8 ++ 0b00101#5 ++ 0b1101111#7) =
      .jal 5 0x055554 := by decide
theorem test_decode_lb :
    decode (0b000000000011#12 ++ 0b00001#5 ++ 0b000#3 ++ 0b00011#5 ++ 0b0000011#7) =
      .lb 3 1 3 := by decide
theorem test_decode_lh :
    decode (0b000000000110#12 ++ 0b00001#5 ++ 0b001#3 ++ 0b00101#5 ++ 0b0000011#7) =
      .lh 5 1 6 := by decide
theorem test_decode_lw :
    decode (0b000000000100#12 ++ 0b00001#5 ++ 0b010#3 ++ 0b00001#5 ++ 0b0000011#7) =
      .lw 1 1 4 := by decide
theorem test_decode_lbu :
    decode (0b000000000011#12 ++ 0b00001#5 ++ 0b100#3 ++ 0b00100#5 ++ 0b0000011#7) =
      .lbu 4 1 3 := by decide
theorem test_decode_lhu :
    decode (0b111111111100#12 ++ 0b00001#5 ++ 0b101#3 ++ 0b00110#5 ++ 0b0000011#7) =
      .lhu 6 1 0xffc := by decide
theorem test_decode_reservedOpImm010 :
    decode (0b000000000010#12 ++ 0b00001#5 ++ 0b010#3 ++ 0b00011#5 ++ 0b0010011#7) =
      .reservedOpImm010 3 1 2 := by decide
theorem test_decode_reservedOpImm011 :
    decode (0b000000000010#12 ++ 0b00001#5 ++ 0b011#3 ++ 0b00011#5 ++ 0b0010011#7) =
      .reservedOpImm011 3 1 2 := by decide
theorem test_decode_reservedShiftRightType :
    decode (0b0010000#7 ++ 0b00000#5 ++ 0b00001#5 ++ 0b101#3 ++ 0b00000#5 ++ 0b0010011#7) =
      .reservedShiftRightType 0 1 0 0b0010000 := by decide
theorem test_decode_reservedLoad011 :
    decode (0b000000000010#12 ++ 0b00001#5 ++ 0b011#3 ++ 0b00011#5 ++ 0b0000011#7) =
      .reservedLoad011 3 1 2 := by decide
theorem test_decode_reservedLoad110 :
    decode (0b000000000010#12 ++ 0b00001#5 ++ 0b110#3 ++ 0b00011#5 ++ 0b0000011#7) =
      .reservedLoad110 3 1 2 := by decide
theorem test_decode_reservedLoad111 :
    decode (0b000000000010#12 ++ 0b00001#5 ++ 0b111#3 ++ 0b00011#5 ++ 0b0000011#7) =
      .reservedLoad111 3 1 2 := by decide
theorem test_decode_unrecognised :
    decode (0b0000000000010000000001000#25 ++ 0b1110011#7) = .unrecognised 0b1110011 0x2008 := by
  decide

/-- 95_test_vectors.md 2.10: SRLI's and SRAI's type field is compared in all seven bits (R91). -/
theorem test_decode_shift_type_all_bits :
    decode 0x4200d013#32 = .reservedShiftRightType 0 1 0 0b0100001 ∧
    decode 0x0200d013#32 = .reservedShiftRightType 0 1 0 0b0000001 := by decide

/-- 95_test_vectors.md 2.5: words of the round-trip tables. -/
theorem test_encode_vectors :
    encodeItype (-2048) 0 0 0 0b0010011 = 0x80000013#32 ∧
    encodeItype 2047 0 0 0 0b0010011 = 0x7ff00013#32 ∧
    encodeJtype (-349526) 0 0b1101111 = 0xaabaa06f#32 ∧
    encodeJtype 2048 0 0b1101111 = 0x0010006f#32 ∧
    encodeJtype (-1048576) 0 0b1101111 = 0x8000006f#32 := by decide

theorem test_decode_bytes :
    decodeBytes [0xef, 0xf2, 0xdf, 0xff, 0x13] = .ok (.jal 5 0x1ffffc, [0x13]) ∧
    decodeBytes [0x13, 0x00, 0x00] = .error .truncated := ⟨rfl, rfl⟩

theorem test_decodeTableWord :
    decodeTableWord 32 0x4010d193 = some (.srai 3 1 1) := by decide

/-- 30_encoding.md R98, R99. -/
theorem test_assembly :
    assembly (decode 0x00110113#32) = some "ADDI x2, x2, 1" ∧
    assembly (decode 0xffdff2ef#32) = some "JAL x5, -4" ∧
    assembly (decode 0xffc0d303#32) = some "LHU x6, -4(x1)" ∧
    encode pseudoNop = 0x00000013#32 ∧ encode (pseudoJ 0) = 0x0000006f#32 ∧
    encode (pseudoNot 3 1) = 0xfff0c193#32 ∧ encode (pseudoMv 3 1) = 0x00008193#32 ∧
    encode (pseudoLi 3 0x800) = 0x80000193#32 := by decide

/-! ### The blocks (95_test_vectors.md 2.1 to 2.4) -/

theorem test_alu_operand_order :
    alu .sub 0x00000007#32 0x0000000c#32 = 0xfffffffb#32 ∧
    alu .sll 0x00000024#32 0x12345678#32 = 0x23456780#32 ∧
    alu .srl 0xffffffff#32 0x80000000#32 = 0x00000001#32 ∧
    alu .sra 0xffffffe1#32 0x8f0f0f0f#32 = 0xc7878787#32 ∧
    alu .sra 0x0000001f#32 0x7fffffff#32 = 0x00000000#32 := by decide

theorem test_extract_lanes :
    extract 0x12345678#32 2#32 .byte false = 0x00000034#32 ∧
    extract 0x1234f678#32 3#32 .half false = 0x00001234#32 ∧
    extract 0x800000ff#32 2#32 .half true = 0xffff8000#32 ∧
    extract 0x12345678#32 3#32 .word false = 0x12345678#32 := by decide

/-- A state with `pc`, `x1`, and a word at `pc`. -/
def stateAt (pc x1 : Word) (word : Nat) : State :=
  (({ State.reset with pc := pc, pcInc := pc + 4#32 }).writeReg 1 x1).withFetchWord 32 word

/-- The data memory of 95_test_vectors.md 2.9 beside `stateAt`. -/
def withData (s : State) : State :=
  (((s.placeDataWord 0x00 0x11223344).placeDataWord 0x3f 0xcafebabe).placeDataWord 0x40
    0x800000ff).placeDataWord 0x41 0x1234f678

/-- Register `r` and `pc` after one step. -/
def after (r : RegIdx) (s : State) : Option (Word × Word) :=
  match step s with
  | .next t => some (t.readReg r, t.pc)
  | .fault _ => none
  | .refused _ => none

theorem test_block_register_file :
    (rfTick true 5 0xdeadbeef (State.reset.writeReg 5 0x11111111)).readReg 5 = 0xdeadbeef#32 ∧
    (rfTick true 0 0xffffffff State.reset).readReg 0 = 0#32 ∧
    (rfTick false 7 0x12345678 (State.reset.writeReg 7 7)).readReg 7 = 7#32 := by decide

theorem test_block_program_counter :
    (pcTick true 0xdeadbeef#32 (stateAt 4 0 0)).pc = 0xdeadbeef#32 ∧
    (pcTick true 0xdeadbeef#32 (stateAt 4 0 0)).pcInc = 0xdeadbef3#32 ∧
    (pcTick false 0x12345678#32 (stateAt 0x10 0 0)).pc = 0x14#32 ∧
    (pcTick false 0#32 (stateAt 0xfffffffc 0 0)).pcInc = 4#32 := by decide

/-- 95_test_vectors.md 2.6, four of the rows. -/
theorem test_block_decoder :
    controlOf 0x4040d193#32 = .defined
      { pcLoad := false, aluOp := some .sra, aluImm := some 4, aluBSrc := some .reg, rfWe := true,
        rfWsel := 3, rfRsel1 := 1, rfRsel2 := 4, wbSel := some .alu, ldWidth := none,
        ldSigned := none } ∧
    controlOf 0xffdff2ef#32 = .defined
      { pcLoad := true, aluOp := some .add, aluImm := some 0xfffffffc, aluBSrc := some .pc,
        rfWe := true, rfWsel := 5, rfRsel1 := 31, rfRsel2 := 29, wbSel := some .pcInc,
        ldWidth := none, ldSigned := none } ∧
    controlOf 0xffc0d303#32 = .defined
      { pcLoad := false, aluOp := some .add, aluImm := some 0xfffffffc, aluBSrc := some .reg,
        rfWe := true, rfWsel := 6, rfRsel1 := 1, rfRsel2 := 28, wbSel := some .load,
        ldWidth := some .half, ldSigned := some false } ∧
    controlOf 0x002081b3#32 = .noop
      { pcLoad := false, aluOp := none, aluImm := none, aluBSrc := none, rfWe := false,
        rfWsel := 3, rfRsel1 := 1, rfRsel2 := 2, wbSel := none, ldWidth := none,
        ldSigned := none } := by decide

/-! ### One step per instruction (95_test_vectors.md 2.7 to 2.10) -/

theorem test_addi_overflow :
    after 3 (stateAt 0x100 0x7ffff801 0x7ff08193) = some (0x80000000, 0x104) := by decide
theorem test_addi_x0 : after 0 (stateAt 0x100 0x12345678 0x00108013) = some (0, 0x104) := by decide
theorem test_xori :
    after 3 (stateAt 0x100 0x12345678 0x70f0c193) = some (0x12345177, 0x104) := by decide
theorem test_xori_not :
    after 3 (stateAt 0x100 0x12345678 0xfff0c193) = some (0xedcba987, 0x104) := by decide
theorem test_ori :
    after 3 (stateAt 0x100 0x12345678 0x70f0e193) = some (0x1234577f, 0x104) := by decide
theorem test_ori_sign :
    after 3 (stateAt 0x100 0x12345678 0x8000e193) = some (0xfffffe78, 0x104) := by decide
theorem test_andi :
    after 3 (stateAt 0x100 0x12345678 0x70f0f193) = some (0x00000608, 0x104) := by decide
theorem test_andi_sign :
    after 3 (stateAt 0x100 0x12345678 0xff00f193) = some (0x12345670, 0x104) := by decide
theorem test_slli_31 :
    after 3 (stateAt 0x100 0x12345679 0x01f09193) = some (0x80000000, 0x104) := by decide
theorem test_slli_ignored :
    after 3 (stateAt 0x100 0x12345678 0xfe109193) = some (0x2468acf0, 0x104) := by decide
theorem test_srli :
    after 3 (stateAt 0x100 0x87654321 0x0040d193) = some (0x08765432, 0x104) := by decide
theorem test_srli_31 : after 3 (stateAt 0x100 0x87654321 0x01f0d193) = some (1, 0x104) := by decide
theorem test_srai :
    after 3 (stateAt 0x100 0x87654321 0x4040d193) = some (0xf8765432, 0x104) := by decide
theorem test_srai_31 : after 3 (stateAt 0x100 0x7fffffff 0x41f0d193) = some (0, 0x104) := by decide
theorem test_jal_backward : after 3 (stateAt 4 0 0xffdff1ef) = some (8, 0) := by decide
theorem test_jal_wraps : after 3 (stateAt 0xfffffffc 0 0x008001ef) = some (0, 4) := by decide
theorem test_lb :
    after 3 (withData (stateAt 0 0x100 0x00308183)) = some (0xffffff80, 4) := by decide
theorem test_lb_below : after 3 (withData (stateAt 0 0x100 0xfff08183)) = some (0xffffffca, 4) := by
  decide
theorem test_lh :
    after 3 (withData (stateAt 0 0x100 0x00209183)) = some (0xffff8000, 4) := by decide
theorem test_lh_misaligned :
    after 3 (withData (stateAt 0 0x100 0x00309183)) = some (0xffff8000, 4) := by decide
theorem test_lw_rd_is_rs1 :
    after 1 (withData (stateAt 0 0x100 0x0040a083)) = some (0x1234f678, 4) := by decide
theorem test_lw_wraps :
    after 3 (withData (stateAt 0 0xfffffffc 0x0040a183)) = some (0x11223344, 4) := by decide
theorem test_lbu : after 3 (withData (stateAt 0 0x100 0x0030c183)) = some (0x80, 4) := by decide
theorem test_lbu_lane2 :
    after 3 (withData (stateAt 0 0x100 0x0060c183)) = some (0x34, 4) := by decide
theorem test_lhu : after 3 (withData (stateAt 0 0x100 0xffc0d183)) = some (0xbabe, 4) := by decide
theorem test_lhu_high :
    after 3 (withData (stateAt 0 0x100 0x0060d183)) = some (0x1234, 4) := by decide
theorem test_unrecognised_add : after 3 (stateAt 0x10 7 0x002081b3) = some (0, 0x14) := by decide
theorem test_unrecognised_jalr : after 1 (stateAt 0x10 7 0x000080e7) = some (7, 0x14) := by decide

/-- The alternative of R291 to R293 (log 1): `rd` takes the free value, `pc` advances. -/
theorem test_reservedOpImm010 :
    after 3 (stateAt 0x10 7 0x0020a193) = some (Config.freeValue 0, 0x14) := rfl
theorem test_reservedOpImm011 : after 0 (stateAt 0x10 7 0x00003013) = some (0, 0x14) := by decide
theorem test_reservedShiftRightType :
    after 0 (stateAt 0x10 7 0xfe00d013) = some (0, 0x14) := by decide
theorem test_reservedLoad011 : after 0 (stateAt 0x10 7 0x00003003) = some (0, 0x14) := by decide
theorem test_reservedLoad110 : after 1 (stateAt 0x10 7 0x00006003) = some (7, 0x14) := by decide
theorem test_reservedLoad111 :
    after 3 (stateAt 0x10 7 0x00007183) = some (Config.freeValue 0, 0x14) := rfl

/-- The first instruction after reset is the one `withFetchWord` places. -/
theorem test_withFetchWord_at_reset :
    after 2 (State.reset.withFetchWord 32 0x00110113) = some (1, 4) := by decide

/-- The data word of the misaligned fetch of 95_test_vectors.md 2.8 stands at byte 8. -/
theorem test_fetch_at_misaligned_pc : wordAddr 0x0000000a#32 = 2#30 := by decide

/-! ### Witnesses: the hypotheses of each statement are met -/

/-- A state with a word at `pc` 0, right after reset. -/
def first (word : Nat) : State := State.reset.withFetchWord 32 word

/-- Every `…Effect` statement, UnrecognisedOpcodeNoop and ReservedWordsWriteFreeValue ask only for a
linked state. -/
theorem witness_linked : State.reset.Linked ∧ (stateAt 0xfffffffc 7 0).Linked := by decide

theorem witness_RegisterFileWritePort :
    (true = true ∧ (31#5) ≠ 0#5 ∧ (31#5) = 31#5) ∧ ¬((0#5) ≠ 0#5) := by decide

theorem witness_WriteToRegisterZeroDropped :
    ∃ s t, fieldRd s.fetchWord = 0#5 ∧ step s = .next t :=
  ⟨first 0x00000013, _, by decide, rfl⟩

theorem witness_OneRegisterWrittenPerTick :
    ∃ s t r, step s = .next t ∧ t.readReg r ≠ s.readReg r :=
  ⟨first 0x00100f93, _, 31, rfl, by decide⟩

theorem witness_PcAdvanceEveryTick_jal :
    ∃ s t, s.Linked ∧ step s = .next t ∧ fieldOpcode s.fetchWord = 0b1101111#7 :=
  ⟨first 0xffdff1ef, _, by decide, rfl, by decide⟩
theorem witness_PcAdvanceEveryTick_other :
    ∃ s t, s.Linked ∧ step s = .next t ∧ fieldOpcode s.fetchWord ≠ 0b1101111#7 :=
  ⟨stateAt 0xfffffffc 0 0x00000073, _, by decide, rfl, by decide⟩

theorem witness_TickEstablishesLink : ∃ s t, ¬ s.Linked ∧ step s = .next t :=
  ⟨{ first 0x0000006f with pcInc := 0x10 }, _, by decide, rfl⟩

theorem witness_FetchUsesWordAddress :
    ∃ s s' : State, s'.imem = s.imem ∧ s'.pc >>> 2 = s.pc >>> 2 ∧ s'.pc ≠ s.pc :=
  ⟨first 0x13, { first 0x13 with pc := 3 }, rfl, by decide, by decide⟩

theorem witness_AluShift_amounts :
    (0xffffffe0#32).toNat % 32 = 0 ∧ (0xffffffff#32).toNat % 32 = 31 ∧
      (0x7fffffff#32).getLsbD 31 = false := by decide

theorem witness_ShiftAmountFiveBits :
    (0xffffffe1#32).extractLsb' 0 5 = (1#32).extractLsb' 0 5 := by decide

theorem witness_MemoryLittleEndian : 0 < 4 ∧ 3 < 4 := by decide

/-- The bounds of the I-type ranges (bits 0, 10, 11, 31) and of the J-type ones. -/
theorem witness_immediate_bits :
    (immI (fieldImmI 0x40000013#32)).getLsbD 10 = true ∧
    (immI (fieldImmI 0x80000013#32)).getLsbD 11 = true ∧
    (immI (fieldImmI 0x80000013#32)).getLsbD 31 = true ∧
    (immJ (fieldImmJ 0x0020006f#32)).getLsbD 1 = true ∧
    (immJ (fieldImmJ 0x4000006f#32)).getLsbD 10 = true ∧
    (immJ (fieldImmJ 0x0010006f#32)).getLsbD 11 = true ∧
    (immJ (fieldImmJ 0x0000106f#32)).getLsbD 12 = true ∧
    (immJ (fieldImmJ 0x0008006f#32)).getLsbD 19 = true ∧
    (immJ (fieldImmJ 0x8000006f#32)).getLsbD 20 = true := by decide

theorem witness_ImmediateRoundTrip :
    (immI (fieldImmI (encodeItype (-2048) 1 0 2 0x13))).toInt = -2048 ∧
    (immI (fieldImmI (encodeItype 2047 1 0 2 0x13))).toInt = 2047 ∧
    (immJ (fieldImmJ (encodeJtype (-1048576) 1 0x6f))).toInt = -1048576 ∧
    (immJ (fieldImmJ (encodeJtype 1048574 1 0x6f))).toInt = 1048574 ∧
    (1048574 : Int) % 2 = 0 ∧ (-1048576 : Int) % 2 = 0 := by decide

theorem witness_DecodeOfEncode :
    (Instr.jal 31 0x100000).wellFormed = true ∧
    (Instr.reservedShiftRightType 31 31 31 0x7f).wellFormed = true ∧
    (Instr.unrecognised 0x7f 0x1ffffff).wellFormed = true ∧
    (Instr.slli 31 31 31 0x7f).wellFormed = true := by decide

theorem witness_StepRunsDecodedInstruction :
    (first 0x00110113).fetchWord = encode (.addi 2 2 1) ∧
      (Instr.addi 2 2 1).wellFormed = true ∧ 0xffffffff < 2 ^ 32 := by decide

/-- A misaligned target whose word is not a JAL, and the tick after it. -/
theorem witness_JalMisalignedTarget :
    ∃ s t u, (Instr.jal 3 2).wellFormed = true ∧ exec (.jal 3 2) s = .next t ∧
      fieldOpcode t.fetchWord ≠ 0b1101111#7 ∧ step t = .next u :=
  ⟨(stateAt 8 0 0x002001ef).placeInstrWord 2 0x00000013, _, _, by decide, rfl, by decide, rfl⟩

theorem witness_JumpToSelfParks :
    (stateAt 0x2c 0 0x0000006f).Linked ∧
      (stateAt 0x2c 0 0x0000006f).fetchWord = 0x0000006f#32 := by decide

theorem witness_MisalignedLoadPolicies :
    misaligned .half (State.reset.effectiveAddr 1 1) = true ∧
    misaligned .half (State.reset.effectiveAddr 1 2) = false ∧
    misaligned .word (State.reset.effectiveAddr 1 2) = true ∧
    misaligned .word (State.reset.effectiveAddr 1 4) = false ∧
    misaligned .byte (State.reset.effectiveAddr 1 3) = false := by decide

theorem witness_load_address :
    (0x103#32) = (stateAt 0 0x100 0).readReg 1 + (3#12).signExtend 32 := by decide

theorem witness_UnrecognisedOpcodeNoop :
    (0b1110011#7) ≠ 0b0000011#7 ∧ (0b1110011#7) ≠ 0b0010011#7 ∧ (0b1110011#7) ≠ 0b1101111#7 ∧
      (first 0x00100073).fetchWord = 0x2000#25 ++ 0b1110011#7 := by decide

theorem witness_RestOfRv32iSkipped :
    (first 0x0000000f).Linked ∧ fieldOpcode (first 0x0000000f).fetchWord = 0b0001111#7 ∧
    fieldOpcode (first 0x00000073).fetchWord = 0b1110011#7 ∧
    fieldOpcode (first 0x000011b7).fetchWord = 0b0110111#7 ∧
    fieldOpcode (first 0x00000017).fetchWord = 0b0010111#7 ∧
    fieldOpcode (first 0x000080e7).fetchWord = 0b1100111#7 ∧
    fieldOpcode (first 0x00208463).fetchWord = 0b1100011#7 ∧
    fieldOpcode (first 0x0020a023).fetchWord = 0b0100011#7 ∧
    fieldOpcode (first 0x002081b3).fetchWord = 0b0110011#7 := by decide

theorem witness_ReservedWordsWriteFreeValue :
    (0b0000001#7) ≠ 0b0000000#7 ∧ (0b0000001#7) ≠ 0b0100000#7 ∧
      (0b0100001#7) ≠ 0b0100000#7 ∧ State.reset.Linked := by decide

theorem witness_DecoderOpImmOutputs :
    fieldOpcode 0x4040d193#32 = 0b0010011#7 ∧ fieldFunct3 0x4040d193#32 = 0b101#3 ∧
      fieldFunct7 0x4040d193#32 = 0b0100000#7 ∧ fieldOpcode 0x00002013#32 = 0b0010011#7 ∧
      fieldFunct3 0x00002013#32 = 0b010#3 := by decide
theorem witness_DecoderJalOutputs : fieldOpcode 0xffdff2ef#32 = 0b1101111#7 := by decide
theorem witness_DecoderLoadOutputs :
    fieldOpcode 0xffc0d303#32 = 0b0000011#7 ∧ fieldOpcode 0x00003003#32 = 0b0000011#7 := by decide
theorem witness_DecoderNoopOutputs :
    fieldOpcode 0xffffffff#32 ∉ [0b0000011#7, 0b0010011#7, 0b1101111#7] := by decide

theorem witness_StepKeepsInvariant : ∃ s t, s.Inv ∧ step s = .next t :=
  ⟨first 0xffdff1ef, _, by decide, rfl⟩

theorem witness_EnvironmentKeepsInvariant : (first 0x00110113).Inv := by decide

theorem witness_CoreNeverWritesMemory : ∃ s t, step s = .next t :=
  ⟨first 0x0020a023, _, rfl⟩

/-- A load at byte 0x100 reads word 0x40 only. -/
theorem witness_OnlyLoadedWordIsConsumed :
    ∃ s t wa, dataAccess s = some wa ∧ wa = 0x40#30 ∧ step s = .next t :=
  ⟨withData (stateAt 0 0x100 0x0000a103), _, 0x40, by decide, rfl, rfl⟩
theorem witness_OnlyLoadedWordIsConsumed_none :
    ∃ s t, dataAccess s = none ∧ step s = .next t :=
  ⟨first 0x00003003, _, by decide, rfl⟩
/-- The premise of the first clause with a memory that differs. -/
theorem witness_OnlyLoadedWordIsConsumed_memory :
    ∃ (s t : State) (m : Memory), m ≠ s.dmem ∧ step s = .next t ∧
      ∀ wa, dataAccess s = some wa → Memory.wordAt Config.platformDataByte m wa = s.dataWord wa :=
  ⟨first 0x00000013, _, [(0, 1)], by decide, rfl, fun _ h => nomatch h⟩

theorem witness_OnlyRs1IsConsumed :
    (∃ s t, (2#5) ≠ fieldRs1 s.fetchWord ∧ step s = .next t) ∧
    ∃ s t, fieldOpcode s.fetchWord ∉ [0b0010011#7, 0b0000011#7] ∧ step s = .next t :=
  ⟨⟨stateAt 0 5 0x00108193, _, by decide, rfl⟩, ⟨first 0x002081b3, _, by decide, rfl⟩⟩

/-- The clauses about the changed register itself: the `rd` that the word writes, register 0, and a
register that the word does not write. -/
theorem witness_OnlyRs1IsConsumed_changed :
    (∃ s t, (3#5) ≠ fieldRs1 s.fetchWord ∧ (3#5) = fieldRd s.fetchWord ∧
      fieldOpcode s.fetchWord ∈ [0b0010011#7, 0b0000011#7, 0b1101111#7] ∧ step s = .next t) ∧
    (∃ s t, (0#5) ≠ fieldRs1 s.fetchWord ∧ step s = .next t) ∧
    ∃ s t, (31#5) ≠ fieldRs1 s.fetchWord ∧ (31#5) ≠ fieldRd s.fetchWord ∧ step s = .next t :=
  ⟨⟨stateAt 0 5 0x00108193, _, by decide, by decide, by decide, rfl⟩,
    ⟨stateAt 0 5 0x00108193, _, by decide, rfl⟩,
    ⟨stateAt 0 5 0x00108193, _, by decide, by decide, rfl⟩⟩

theorem witness_FirstTickAfterReset :
    ∃ s t : State, fieldOpcode (s.instrWord 0#30) ≠ 0b1101111#7 ∧ step s.assertReset = .next t :=
  ⟨first 0x00110113, _, by decide, rfl⟩

theorem witness_CoreOutputs :
    (∃ s t rd v target, exec (.addi 3 1 1) s = .next t ∧ Effect rd v target s t) ∧
    dataAccess (withData (stateAt 0 0x100 0x0000a103)) = some 0x40#30 :=
  ⟨⟨State.reset, _, 3, _, _, rfl, Sys2Proof.Machine.effect_writeReg_advance _ _ _⟩, by decide⟩

end Sys2Proof.Tests
end

section
/-! SUPPORT. What a step can do, read from the fetched word: the meanings behind the two dispatching
opcode classes, the step of each class, and the inversion of `step`. -/

namespace Sys2Proof.Machine

/-! ### The meanings behind an opcode class -/

/-- OP-IMM (43_op_imm.md R230, 46_other_encodings.md R291, R292): every word is the
register-immediate shape on its own `rd` and `rs1` fields, or a reserved word. -/
theorem exec_decodeOpImm (w : Word) :
    (∃ op a, exec (decodeOpImm w) = opImm op a (fieldRd w) (fieldRs1 w)) ∨
      exec (decodeOpImm w) = reservedWord (fieldRd w) := by
  unfold decodeOpImm
  split_ifs
  · exact .inl ⟨.add, immI (fieldImmI w), rfl⟩
  · exact .inl ⟨.sll, shiftOperand (fieldRs2 w), rfl⟩
  · exact .inr rfl
  · exact .inr rfl
  · exact .inl ⟨.xor, immI (fieldImmI w), rfl⟩
  · exact .inl ⟨.srl, shiftOperand (fieldRs2 w), rfl⟩
  · exact .inl ⟨.sra, shiftOperand (fieldRs2 w), rfl⟩
  · exact .inr rfl
  · exact .inl ⟨.or, immI (fieldImmI w), rfl⟩
  · exact .inl ⟨.and, immI (fieldImmI w), rfl⟩

/-- LOAD (45_load.md R270, 46_other_encodings.md R293): every word is the load shape on its own
fields, or a reserved word. -/
theorem exec_decodeLoad (w : Word) :
    (∃ width signed, exec (decodeLoad w) =
        loadInto Config.misalignedLoadPolicy width signed (fieldRd w) (fieldRs1 w) (fieldImmI w)) ∨
      exec (decodeLoad w) = reservedWord (fieldRd w) := by
  unfold decodeLoad
  split_ifs
  · exact .inl ⟨.byte, true, rfl⟩
  · exact .inl ⟨.half, true, rfl⟩
  · exact .inl ⟨.word, true, rfl⟩
  · exact .inr rfl
  · exact .inl ⟨.byte, false, rfl⟩
  · exact .inl ⟨.half, false, rfl⟩
  · exact .inr rfl
  · exact .inr rfl

/-! ### The step of each opcode class -/

section StepOfOpcode

variable {s : State}

theorem step_of_opImm (h : fieldOpcode s.fetchWord = opcodeOpImm) :
    step s = exec (decodeOpImm s.fetchWord) s := by
  simp [step, decode, h]

theorem step_of_jal (h : fieldOpcode s.fetchWord = opcodeJal) :
    step s = execJal (fieldRd s.fetchWord) (fieldImmJ s.fetchWord) s := by
  simp [step, decode, h, Laws.TableRow.opcodes_ne, exec]

theorem step_of_load (h : fieldOpcode s.fetchWord = opcodeLoad) :
    step s = exec (decodeLoad s.fetchWord) s := by
  simp [step, decode, h, Laws.TableRow.opcodes_ne]

theorem step_of_unrecognised (h : isRecognisedOpcode (fieldOpcode s.fetchWord) = false) :
    step s = .next s.advance := by
  obtain ⟨⟨hload, himm⟩, hjal⟩ : (fieldOpcode s.fetchWord ≠ opcodeLoad ∧
      fieldOpcode s.fetchWord ≠ opcodeOpImm) ∧ fieldOpcode s.fetchWord ≠ opcodeJal := by
    simpa [isRecognisedOpcode] using h
  rw [step, decode, if_neg himm, if_neg hjal, if_neg hload]
  rfl

end StepOfOpcode

/-! ### The inversion of `step` -/

/-- The next state of a tick, by the fetched word `w`. A JAL links and jumps (44_jal.md R260). Any
other word lets `pc` advance, after a value for `rd` (OP-IMM, LOAD), after a free value for `rd` (a
reserved word), or alone (an unrecognised opcode). -/
theorem step_next {s t : State} (h : step s = .next t) :
    (fieldOpcode s.fetchWord = opcodeJal ∧
      t = (s.writeReg (fieldRd s.fetchWord) s.pcInc).jumpTo
        (alu .add (immJ (fieldImmJ s.fetchWord)) s.pc)) ∨
    (fieldOpcode s.fetchWord ≠ opcodeJal ∧
      ((∃ v, t = (s.writeReg (fieldRd s.fetchWord) v).advance) ∨
        t = (s.writeReg (fieldRd s.fetchWord) s.nextFree).useFree.advance ∨
        (isRecognisedOpcode (fieldOpcode s.fetchWord) = false ∧ t = s.advance))) := by
  by_cases hjal : fieldOpcode s.fetchWord = opcodeJal
  · rw [step_of_jal hjal] at h
    exact .inl ⟨hjal, (Host.Outcome.next.inj h).symm⟩
  refine .inr ⟨hjal, ?_⟩
  by_cases himm : fieldOpcode s.fetchWord = opcodeOpImm
  · rw [step_of_opImm himm] at h
    obtain ⟨op, a, hmeaning⟩ | hmeaning := exec_decodeOpImm s.fetchWord
    · rw [hmeaning] at h
      exact .inl ⟨_, (Host.Outcome.next.inj h).symm⟩
    · rw [hmeaning] at h
      exact .inr (.inl (Host.Outcome.next.inj h).symm)
  by_cases hload : fieldOpcode s.fetchWord = opcodeLoad
  · rw [step_of_load hload] at h
    obtain ⟨width, signed, hmeaning⟩ | hmeaning := exec_decodeLoad s.fetchWord
    · rw [hmeaning, Config.misalignedLoadPolicy, loadInto_ignoreLowBits] at h
      exact .inl ⟨_, (Host.Outcome.next.inj h).symm⟩
    · rw [hmeaning] at h
      exact .inr (.inl (Host.Outcome.next.inj h).symm)
  · have hun : isRecognisedOpcode (fieldOpcode s.fetchWord) = false := by
      simp [isRecognisedOpcode, hjal, himm, hload]
    rw [step_of_unrecognised hun] at h
    exact .inr (.inr ⟨hun, (Host.Outcome.next.inj h).symm⟩)

end Sys2Proof.Machine
end

section
/-! PROOFS. The statements about the state of the machine (10_state.md): which register a tick can
change, how the program counter advances, and what register 0 reads as. -/

namespace Sys2Proof.Machine

/-! ### Registers -/

/-- A write shows only in the register written, and never in register 0 (10_state.md R22, R23). -/
theorem eq_and_ne_zero_of_readReg_writeReg_ne {s : State} {i r : RegIdx} {v : Word}
    (h : (s.writeReg i v).readReg r ≠ s.readReg r) : r = i ∧ r ≠ 0#5 := by
  rw [readReg_writeReg] at h
  by_cases hw : r = i ∧ i ≠ 0#5
  · obtain ⟨rfl, hr⟩ := hw
    exact ⟨rfl, hr⟩
  · exact absurd (if_neg hw) h

/-- Settles O4: each next state reads its registers from one `writeReg` to the `rd` field, or from
the state before. -/
theorem oneRegisterWrittenPerTick : Obligations.OneRegisterWrittenPerTick := by
  intro s t hstep r hr
  obtain ⟨-, rfl⟩ | ⟨-, ⟨v, rfl⟩ | rfl | ⟨-, rfl⟩⟩ := step_next hstep
  · exact eq_and_ne_zero_of_readReg_writeReg_ne hr
  · exact eq_and_ne_zero_of_readReg_writeReg_ne hr
  · exact eq_and_ne_zero_of_readReg_writeReg_ne hr
  · exact absurd (advance_readReg s r) hr

/-! ### Program counter -/

/-- A tick without a JAL moves both counters on, as the program counter block does without a load
(40_blocks.md R139). -/
theorem step_pc_of_not_jal {s t : State} (hstep : step s = .next t)
    (hjal : fieldOpcode s.fetchWord ≠ opcodeJal) : t.pc = s.pcInc ∧ t.pcInc = s.pcInc + 4#32 := by
  obtain ⟨hop, -⟩ | ⟨-, ⟨v, rfl⟩ | rfl | ⟨-, rfl⟩⟩ := step_next hstep
  · exact absurd hop hjal
  all_goals simp

/-- A JAL loads the program counter with its target (44_jal.md R260). -/
theorem step_pc_of_jal {s t : State} (hstep : step s = .next t)
    (hjal : fieldOpcode s.fetchWord = opcodeJal) :
    t.pc = s.pc + immJ (fieldImmJ s.fetchWord) ∧ t.pcInc = t.pc + 4#32 := by
  rw [step_of_jal hjal] at hstep
  obtain rfl := Host.Outcome.next.inj hstep
  exact ⟨BitVec.add_comm _ _, rfl⟩

/-- Settles O6: the link turns the stored `pc_inc`, which `pc` takes, into `pc + 4`. -/
theorem pcAdvanceEveryTick : Obligations.PcAdvanceEveryTick := by
  intro s t hlinked hstep
  refine ⟨step_pc_of_jal hstep, fun hjal => ?_⟩
  obtain ⟨hpc, hinc⟩ := step_pc_of_not_jal hstep hjal
  exact ⟨hpc.trans hlinked, hpc, by rw [hinc, hpc]⟩

/-! ### Register 0 -/

/-- Settles O1: both primary ports are `readReg`, and so is the diagnostic one, at an index that may
be 0. -/
theorem registerZeroReadsZero : Obligations.RegisterZeroReadsZero := by
  intro s sel
  refine ⟨readReg_zero s, readReg_zero s, readReg_zero s, ?_⟩
  unfold debugOut
  split
  case isTrue hzero => rw [hzero, readReg_zero]
  case isFalse => rfl

end Sys2Proof.Machine
end

section
/-! PROOFS. The statements about the two memories (20_memory.md): which word a tick fetches, and what
the load primitive returns. -/

namespace Sys2Proof.Machine

/-! ### The fetch -/

/-- A word read depends on the cells of the instruction memory alone. -/
theorem instrWord_congr {s t : State} (h : t.imem = s.imem) (wa : WordAddr) :
    t.instrWord wa = s.instrWord wa := by
  simp [State.instrWord, h]

/-- Addresses that differ in their two low bits only have one word address (20_memory.md R50). -/
theorem wordAddr_eq_of_ushiftRight_eq {a b : Word} (h : a >>> 2 = b >>> 2) :
    wordAddr a = wordAddr b := by
  simp only [wordAddr, ← BitVec.setWidth_ushiftRight_eq_extractLsb, h]

/-- Settles O8: the first half is the definition of the fetch; for the second, the fetch reads the
memory's cells at the word address, and both agree. -/
theorem fetchUsesWordAddress : Obligations.FetchUsesWordAddress := by
  refine ⟨fun s => ⟨rfl, rfl⟩, fun s s' hmem hpc => ?_⟩
  calc s'.fetchWord = s'.instrWord (wordAddr s.pc) :=
        congrArg s'.instrWord (wordAddr_eq_of_ushiftRight_eq hpc)
    _ = s.fetchWord := instrWord_congr hmem (wordAddr s.pc)

/-! ### The load primitive -/

/-- Bit 1 of the address clear selects the low half (20_memory.md R54). -/
theorem selectHalf_eq_ite (raw addr : Word) :
    selectHalf raw addr =
      if addr.getLsbD 1 = false then raw.extractLsb' 0 16 else raw.extractLsb' 16 16 := by
  unfold selectHalf
  cases addr.getLsbD 1 <;> rfl

/-- The two low bits of the address number the byte lane (20_memory.md R54). -/
theorem selectByte_eq_ite (raw addr : Word) :
    selectByte raw addr =
      if addr.extractLsb' 0 2 = 0b00#2 then raw.extractLsb' 0 8
      else if addr.extractLsb' 0 2 = 0b01#2 then raw.extractLsb' 8 8
      else if addr.extractLsb' 0 2 = 0b10#2 then raw.extractLsb' 16 8
      else raw.extractLsb' 24 8 := by
  have hlane : ∀ k : BitVec 2, k = 0b00#2 ∨ k = 0b01#2 ∨ k = 0b10#2 ∨ k = 0b11#2 := by decide
  unfold selectByte
  obtain h | h | h | h := hlane (addr.extractLsb' 0 2) <;> rw [h] <;> rfl

/-- Settles O15: the extractor applied to the word at `addr[31:2]`, by width and signedness. -/
theorem memReadPrimitive : Obligations.MemReadPrimitive := by
  intro s addr signed
  rw [← selectHalf_eq_ite, ← selectByte_eq_ite]
  exact ⟨rfl, rfl, rfl, rfl, rfl⟩

end Sys2Proof.Machine
end

section
/-! PROOFS. The statements about the immediates (30_encoding.md R85, R88): sign extension keeps the
signed value, and an integer immediate is read back from its encoding. -/

namespace Sys2Proof.Machine

/-! ### The signed value of an immediate -/

@[simp] theorem toInt_immI (imm : BitVec 12) : (immI imm).toInt = imm.toInt :=
  BitVec.toInt_signExtend_of_le (by decide)

@[simp] theorem toInt_immJ (offset : BitVec 21) : (immJ offset).toInt = offset.toInt :=
  BitVec.toInt_signExtend_of_le (by decide)

/-! ### The bits of the I-type immediate -/

/-- The bits of the I-type field are the bits of the word from 20 up (30_encoding.md R82). -/
theorem fieldImmI_bit (w : Word) {i : Nat} (hi : i < 12) :
    (fieldImmI w).getLsbD i = w.getLsbD (20 + i) := by
  simp [fieldImmI, hi]

/-- Below the field's top bit the immediate is the field, and from there up it repeats that bit. -/
theorem immI_bit (imm : BitVec 12) {i : Nat} (hi : i < 32) :
    (immI imm).getLsbD i = if i ≤ 10 then imm.getLsbD i else imm.getLsbD 11 := by
  rw [immI, BitVec.getLsbD_signExtend, decide_eq_true hi, Bool.true_and,
    BitVec.msb_eq_getLsbD_last]
  obtain h | rfl | h : i < 11 ∨ i = 11 ∨ 11 < i := by omega
  · rw [if_pos (by omega), if_pos (by omega)]
  · rfl
  · rw [if_neg (by omega), if_neg (by omega)]

/-- Settles O18: each bit of the immediate is a bit of the field, hence of the word; the range is
that of a 12-bit signed number. -/
theorem itypeImmediateSignExtended : Obligations.ItypeImmediateSignExtended := by
  refine ⟨fun w => ⟨fun i hi => ?low, fun i hlo hhi => ?high, ?lower, ?upper⟩, by decide⟩
  case low => rw [immI_bit _ (by omega), if_pos hi, fieldImmI_bit w (by omega)]
  case high => rw [immI_bit _ (by omega), if_neg (by omega), fieldImmI_bit w (by decide)]
  case lower =>
    rw [toInt_immI]
    exact BitVec.le_toInt (fieldImmI w)
  case upper =>
    rw [toInt_immI]
    exact Int.le_of_lt_add_one (BitVec.toInt_lt (x := fieldImmI w))

/-! ### The round trip of an integer immediate -/

/-- An even integer has bit 0 clear, which the J-type layout does not store (30_encoding.md R83). -/
theorem getLsbD_zero_ofInt_of_even {x : Int} (hx : x % 2 = 0) :
    (BitVec.ofInt 21 x).getLsbD 0 = false := by
  rw [BitVec.getLsbD, BitVec.toNat_ofInt, Nat.testBit_zero, decide_eq_false_iff_not]
  omega

/-- The I-type immediate read back is the integer reduced to 12 bits. -/
@[simp] theorem fieldImmI_encodeItype (x : Int) (rs1 : RegIdx) (funct3 : BitVec 3) (rd : RegIdx)
    (op : BitVec 7) : fieldImmI (encodeItype x rs1 funct3 rd op) = BitVec.ofInt 12 x :=
  fieldImmI_wordI ..

/-- The J-type immediate of an even integer, read back, is the integer reduced to 21 bits. -/
theorem fieldImmJ_encodeJtype {x : Int} (hx : x % 2 = 0) (rd : RegIdx) (op : BitVec 7) :
    fieldImmJ (encodeJtype x rd op) = BitVec.ofInt 21 x :=
  fieldImmJ_wordJ _ _ _ (getLsbD_zero_ofInt_of_even hx)

/-- Settles O20: the field read back is the integer reduced to the field's width, and inside the
range the reduction keeps the signed value. -/
theorem immediateRoundTrip : Obligations.ImmediateRoundTrip := by
  refine ⟨fun x rs1 rd funct3 op hlo hhi => ?itype, fun x rd op hlo hhi heven => ?jtype⟩
  case itype =>
    rw [fieldImmI_encodeItype, toInt_immI]
    exact BitVec.toInt_ofInt_eq_self (by decide) hlo (by omega)
  case jtype =>
    rw [fieldImmJ_encodeJtype heven, toInt_immJ]
    exact BitVec.toInt_ofInt_eq_self (by decide) hlo (by omega)

end Sys2Proof.Machine
end

section
/-! PROOFS. The statements about the hardware blocks (40_blocks.md): the register file's write port,
the program counter, the ALU and the load-value extractor. -/

namespace Sys2Proof.Machine

/-! ### RegisterFile and ProgramCounter -/

/-- Settles O2: the enabled port is one `writeReg`, whose own test of `dest` drops register 0. -/
theorem registerFileWritePort : Obligations.RegisterFileWritePort := by
  intro enable dest r value s
  cases enable with
  | false => rfl
  | true =>
    rw [rfTick, if_pos rfl, readReg_writeReg]
    exact if_congr (by tauto) rfl rfl

/-- Settles O5: one tick of the block is `jumpTo` or `advance`, which touch the counters only. -/
theorem programCounterTransition : Obligations.ProgramCounterTransition := by
  intro load inputAddress s
  cases load with
  | false =>
    exact ⟨nofun, fun _ => ⟨rfl, rfl⟩, rfl, advance_readReg s, sameMemory_of_eq rfl rfl⟩
  | true =>
    exact ⟨fun _ => ⟨rfl, rfl⟩, nofun, rfl, jumpTo_readReg s inputAddress,
      sameMemory_of_eq rfl rfl⟩

/-! ### ALU: arithmetic and logic -/

/-- SUB on integers: the wrapped difference is the remainder of the true one (40_blocks.md R122). -/
theorem toNat_alu_sub (a b : Word) :
    ((alu .sub a b).toNat : Int) = ((a.toNat : Int) - b.toNat) % 2 ^ 32 := by
  rw [alu, BitVec.toNat_sub]
  omega

/-- Settles O9: the operations of the 32-bit word are those of the integers, reduced modulo 2^32. -/
theorem aluAddSubWrap : Obligations.AluAddSubWrap := by
  refine ⟨fun a b => ⟨?add, toNat_alu_sub a b, ?cancel⟩, by decide⟩
  case add => exact BitVec.toNat_add a b
  case cancel => exact BitVec.sub_self a

/-- Settles O10: the general part is the bitwise operation itself; 0 and the word of ones are
neutral or absorbing for it. -/
theorem aluBitwiseFullWidth : Obligations.AluBitwiseFullWidth := by
  refine ⟨fun a b i _ => ⟨?and, ?or, ?xor⟩, fun v => ?constants, by decide⟩
  case and => exact BitVec.getLsbD_and
  case or => exact BitVec.getLsbD_or
  case xor => exact BitVec.getLsbD_xor
  case constants =>
    exact ⟨BitVec.zero_and, BitVec.allOnes_and, BitVec.zero_or, BitVec.allOnes_or,
      BitVec.zero_xor, BitVec.allOnes_xor, BitVec.xor_self⟩

/-! ### ALU: the shifts -/

/-- The low five bits of the first operand, as a number, are its remainder modulo 32
(40_blocks.md R129). -/
theorem shiftAmount_eq_mod (a : Word) : shiftAmount a = a.toNat % 32 :=
  BitVec.extractLsb'_toNat 0 5 a

theorem alu_sll (a b : Word) : alu .sll a b = b <<< (a.toNat % 32) := by
  rw [alu, shiftAmount_eq_mod]

theorem alu_srl (a b : Word) : alu .srl a b = b >>> (a.toNat % 32) := by
  rw [alu, shiftAmount_eq_mod]

theorem alu_sra (a b : Word) : alu .sra a b = b.sshiftRight (a.toNat % 32) := by
  rw [alu, shiftAmount_eq_mod]

/-- Settles O13: the shifts look at the first operand through `shiftAmount` only. -/
theorem shiftAmountFiveBits : Obligations.ShiftAmountFiveBits := by
  refine ⟨fun a b => ⟨rfl, shiftAmount_eq_mod a, ?range, rfl, rfl, rfl⟩, fun a a' b h => ?low⟩
  case range => exact BitVec.isLt (a.extractLsb' 0 5)
  case low =>
    have hamount : shiftAmount a = shiftAmount a' := congrArg BitVec.toNat h
    simp only [alu, hamount, and_self]

/-- Shifting left by 31 leaves bit 0, at the top. -/
theorem getLsbD_shiftLeft_31 (b : Word) (i : Nat) :
    (b <<< 31).getLsbD i = (i == 31 && b.getLsbD 0) := by
  rw [BitVec.getLsbD_shiftLeft]
  obtain h | rfl | h : i < 31 ∨ i = 31 ∨ 31 < i := by omega
  · simp [h, h.ne]
  · rfl
  · simp [h.ne', Nat.not_lt.mpr h]

/-- Settles O11: the shift multiplies by a power of two and drops what leaves the word. -/
theorem aluShiftLeft : Obligations.AluShiftLeft := by
  refine ⟨fun a b => ?value, fun a b h => ?zero, fun a b h i => ?top, fun b => ?wraps, by decide⟩
  case value => rw [alu_sll, BitVec.toNat_shiftLeft, Nat.shiftLeft_eq]
  case zero => rw [alu_sll, h, BitVec.shiftLeft_zero]
  case top => rw [alu_sll, h, getLsbD_shiftLeft_31]
  case wraps => exact BitVec.shiftLeft_zero b

/-- Shifting right by 31 leaves the top bit. -/
theorem ushiftRight_31 (b : Word) : b >>> 31 = if b.getLsbD 31 then 1#32 else 0#32 := by
  have hmsb : b.getLsbD 31 = decide (2 ^ 31 ≤ b.toNat) := BitVec.msb_eq_decide b
  apply BitVec.eq_of_toNat_eq
  rw [BitVec.toNat_ushiftRight, Nat.shiftRight_eq_div_pow, hmsb]
  by_cases h : 2 ^ 31 ≤ b.toNat
  · rw [decide_eq_true h, if_pos rfl, BitVec.toNat_ofNat]
    omega
  · rw [decide_eq_false h, if_neg Bool.false_ne_true, BitVec.toNat_ofNat]
    omega

/-- Shifting right by 31 with the sign leaves 32 copies of the top bit. -/
theorem sshiftRight_31 (b : Word) :
    b.sshiftRight 31 = if b.getLsbD 31 then 0xffffffff#32 else 0#32 := by
  cases h : b.getLsbD 31 with
  | false =>
    rw [BitVec.sshiftRight_eq_of_msb_false (x := b) h, ushiftRight_31, h]
    rfl
  | true =>
    have hnot : (~~~b).getLsbD 31 = false := by simp [h]
    rw [BitVec.sshiftRight_eq_of_msb_true (x := b) h, ushiftRight_31, hnot]
    rfl

/-- Settles O12: SRL divides the unsigned value and SRA the signed one, both rounding down. -/
theorem aluShiftRight : Obligations.AluShiftRight := by
  refine ⟨fun a b => ⟨?srl, ?sra⟩, fun a b h => ⟨?srl0, ?sra0⟩, fun a b h => ⟨?srl31, ?sra31⟩,
    fun a b h => ?nonneg, by decide⟩
  case srl => rw [alu_srl, BitVec.toNat_ushiftRight, Nat.shiftRight_eq_div_pow]
  case sra =>
    rw [alu_sra, BitVec.toInt_sshiftRight, Int.shiftRight_eq_div_pow, Nat.cast_pow, Nat.cast_ofNat]
  case srl0 => rw [alu_srl, h, BitVec.ushiftRight_zero]
  case sra0 => rw [alu_sra, h, BitVec.sshiftRight_zero]
  case srl31 => rw [alu_srl, h, ushiftRight_31]
  case sra31 => rw [alu_sra, h, sshiftRight_31]
  case nonneg => exact BitVec.sshiftRight_eq_of_msb_false h

/-! ### LoadValueExtractor -/

/-- Bit 1 of the address numbers the half (40_blocks.md R144). -/
theorem selectHalf_eq_ushiftRight (raw addr : Word) :
    selectHalf raw addr = (raw >>> (16 * (addr.toNat / 2 % 2))).setWidth 16 := by
  have hbit : addr.getLsbD 1 = decide (addr.toNat / 2 % 2 = 1) := Nat.testBit_eq_decide_div_mod_eq
  rw [BitVec.setWidth_ushiftRight_eq_extractLsb, selectHalf, hbit]
  obtain h | h := Nat.mod_two_eq_zero_or_one (addr.toNat / 2) <;> rw [h] <;> rfl

/-- The two low bits of the address number the byte (40_blocks.md R145). -/
theorem selectByte_eq_ushiftRight (raw addr : Word) :
    selectByte raw addr = (raw >>> (8 * (addr.toNat % 4))).setWidth 8 := by
  have hlane : (addr.extractLsb' 0 2).toNat = addr.toNat % 4 := BitVec.extractLsb'_toNat 0 2 addr
  rw [BitVec.setWidth_ushiftRight_eq_extractLsb, selectByte, hlane, byteOfWord]

/-- Sign extension keeps the signed value. -/
theorem toInt_extendTo32_true {n : Nat} (hn : n ≤ 32) (v : BitVec n) :
    (extendTo32 true v).toInt = v.toInt :=
  BitVec.toInt_signExtend_of_le hn

/-- Zero extension keeps the unsigned value. -/
theorem toNat_extendTo32_false {n : Nat} (hn : n ≤ 32) (v : BitVec n) :
    (extendTo32 false v).toNat = v.toNat :=
  BitVec.toNat_setWidth_of_le hn

/-- Settles O14: the value extended is the selected part, a shift of the word cut to the width. -/
theorem extractorSelectsAndExtends : Obligations.ExtractorSelectsAndExtends := by
  refine ⟨fun raw addr signed => ⟨rfl, ?half, ?halfU, ?byte, ?byteU⟩, by decide⟩
  case half => rw [extract, toInt_extendTo32_true (by decide), selectHalf_eq_ushiftRight]
  case halfU =>
    rw [extract, toNat_extendTo32_false (by decide), selectHalf_eq_ushiftRight,
      BitVec.toNat_setWidth]
  case byte => rw [extract, toInt_extendTo32_true (by decide), selectByte_eq_ushiftRight]
  case byteU =>
    rw [extract, toNat_extendTo32_false (by decide), selectByte_eq_ushiftRight,
      BitVec.toNat_setWidth]

end Sys2Proof.Machine
end

section
/-! PROOFS. The statements about the decoder block (41_decoder.md): its answer for each opcode class,
and the bundle of each answer. -/

namespace Sys2Proof.Machine

/-! ### The answer for each opcode class -/

section AnswerOfOpcode

variable {w : Word}

theorem controlOf_of_opImm (h : fieldOpcode w = opcodeOpImm) : controlOf w = controlOpImm w := by
  rw [fieldOpcode] at h
  rw [controlOf, h]
  rfl

theorem controlOf_of_jal (h : fieldOpcode w = opcodeJal) : controlOf w = controlJal w := by
  rw [fieldOpcode] at h
  rw [controlOf, h]
  rfl

theorem controlOf_of_load (h : fieldOpcode w = opcodeLoad) : controlOf w = controlLoad w := by
  rw [fieldOpcode] at h
  rw [controlOf, h]
  rfl

theorem controlOf_of_unrecognised (himm : fieldOpcode w ≠ opcodeOpImm)
    (hjal : fieldOpcode w ≠ opcodeJal) (hload : fieldOpcode w ≠ opcodeLoad) :
    controlOf w = .noop (defaultBundle w) := by
  unfold controlOf
  split
  case h_1 heq => exact absurd (BitVec.eq_of_toNat_eq heq) himm
  case h_2 heq => exact absurd (BitVec.eq_of_toNat_eq heq) hjal
  case h_3 heq => exact absurd (BitVec.eq_of_toNat_eq heq) hload
  case h_4 => rfl

end AnswerOfOpcode

/-! ### The bundle of each class -/

/-- OP-IMM: `funct3` and `funct7` choose the operation and its operand, and nothing else (R165 to
R168, R173). -/
theorem bundleOf_controlOpImm (w : Word) : ∃ op operand,
    bundleOf (controlOpImm w) = { opImmClass w with aluOp := op, aluImm := operand } := by
  unfold controlOpImm
  split
  case h_4 => split <;> exact ⟨_, _, rfl⟩
  all_goals exact ⟨_, _, rfl⟩

/-- LOAD: `funct3` chooses the width, and nothing else (R170, R171, R173). -/
theorem bundleOf_controlLoad (w : Word) : bundleOf (controlLoad w) =
    { loadClass w with
      ldWidth :=
        if fieldFunct3 w = 0b010#3 then some .word
        else if fieldFunct3 w = 0b001#3 ∨ fieldFunct3 w = 0b101#3 then some .half
        else if fieldFunct3 w = 0b000#3 ∨ fieldFunct3 w = 0b100#3 then some .byte
        else none } := by
  have hfunct3 : ∀ f : BitVec 3, f = 0b000#3 ∨ f = 0b001#3 ∨ f = 0b010#3 ∨ f = 0b011#3 ∨
      f = 0b100#3 ∨ f = 0b101#3 ∨ f = 0b110#3 ∨ f = 0b111#3 := by decide
  unfold controlLoad fieldFunct3
  obtain h | h | h | h | h | h | h | h := hfunct3 (w.extractLsb' 12 3) <;> rw [h] <;> rfl

/-! ### The outputs -/

/-- Settles O45: every class is the default bundle with other members changed, and the default
bundle's selectors are the fields of the word. -/
theorem selectorsWiredFromWord : Obligations.SelectorsWiredFromWord := by
  intro w
  by_cases himm : fieldOpcode w = opcodeOpImm
  · obtain ⟨op, operand, hbundle⟩ := bundleOf_controlOpImm w
    rw [controlOf_of_opImm himm, hbundle]
    exact ⟨rfl, rfl, rfl⟩
  by_cases hjal : fieldOpcode w = opcodeJal
  · rw [controlOf_of_jal hjal]
    exact ⟨rfl, rfl, rfl⟩
  by_cases hload : fieldOpcode w = opcodeLoad
  · rw [controlOf_of_load hload, bundleOf_controlLoad]
    exact ⟨rfl, rfl, rfl⟩
  · rw [controlOf_of_unrecognised himm hjal hload]
    exact ⟨rfl, rfl, rfl⟩

/-- Settles O48: the class-level outputs of a LOAD, with the width that `funct3` chooses. -/
theorem decoderLoadOutputs : Obligations.DecoderLoadOutputs := by
  intro w hload
  rw [controlOf_of_load hload, bundleOf_controlLoad]
  exact ⟨rfl, rfl, rfl, rfl, rfl, rfl, rfl, rfl⟩

/-- Settles O47: the answer to the opcode is one bundle, in which only `imm_j` and the selectors
depend on the other bits. -/
theorem decoderJalOutputs : Obligations.DecoderJalOutputs := by
  intro w hjal
  exact ⟨_, controlOf_of_jal hjal, rfl, rfl, rfl, rfl, rfl, rfl, rfl, rfl⟩

/-- Settles O49: no recognised opcode leaves the default bundle, which neither writes nor jumps. -/
theorem decoderNoopOutputs : Obligations.DecoderNoopOutputs := by
  intro w hop
  obtain ⟨hload, himm, hjal⟩ : fieldOpcode w ≠ opcodeLoad ∧ fieldOpcode w ≠ opcodeOpImm ∧
      fieldOpcode w ≠ opcodeJal := by simpa using hop
  exact ⟨defaultBundle w, controlOf_of_unrecognised himm hjal hload, rfl, rfl⟩

end Sys2Proof.Machine
end

section
/-! SUPPORT. The decoder gives every well-formed instruction back from its word (30_encoding.md
R82, R83, R90 to R94). -/

namespace Sys2Proof

/-- The opcode, `funct3` and `funct7` of the encoded word lead the decoder to the instruction's own
arm. Well-formedness counts where an operand could name another arm, or cannot be encoded. -/
theorem decode_encode {i : Instr} (hwf : i.wellFormed = true) : decode (encode i) = i := by
  have hopcodes := Laws.TableRow.opcodes_ne
  cases i with
  | jal rd offset =>
    have heven : offset.getLsbD 0 = false := by simpa [Instr.wellFormed] using hwf
    simp [encode, decode, fieldImmJ_wordJ _ _ _ heven, hopcodes]
  | reservedShiftRightType rd rs1 shamt funct7 =>
    obtain ⟨hsrli, hsrai⟩ : funct7 ≠ 0b0000000#7 ∧ funct7 ≠ 0b0100000#7 := by
      simpa [Instr.wellFormed] using hwf
    simp [encode, decode, decodeOpImm, hsrli, hsrai]
  | unrecognised opcode rest =>
    obtain ⟨⟨hload, himm⟩, hjal⟩ : (opcode ≠ opcodeLoad ∧ opcode ≠ opcodeOpImm) ∧
        opcode ≠ opcodeJal := by simpa [Instr.wellFormed, isRecognisedOpcode] using hwf
    simp [encode, decode, fieldOpcode_append, fieldRest_append, hload, himm, hjal]
  | _ => simp [encode, decode, decodeOpImm, decodeLoad, hopcodes]

end Sys2Proof
end

section
/-! PROOFS. The statements about the register-immediate instructions (43_op_imm.md R231 to R237):
each is the decoding of its own encoding, and the family's one shape (R230) with the result of one
ALU operation. -/

namespace Sys2Proof.Machine

/-! ### The results on an immediate, which is the ALU's first operand and the rules' second -/

section AluImmediate

variable (imm : BitVec 12) (x : Word)

theorem alu_add_immI : alu .add (immI imm) x = x + imm.signExtend 32 := BitVec.add_comm ..

theorem alu_xor_immI : alu .xor (immI imm) x = x ^^^ imm.signExtend 32 := BitVec.xor_comm ..

theorem alu_or_immI : alu .or (immI imm) x = x ||| imm.signExtend 32 := BitVec.or_comm ..

theorem alu_and_immI : alu .and (immI imm) x = x &&& imm.signExtend 32 := BitVec.and_comm ..

end AluImmediate

/-! ### The results on a shift amount -/

section AluShiftOperand

variable (shamt : BitVec 5) (x : Word)

/-- The amount the ALU takes from the shift operand is all of `shamt` (30_encoding.md R86). -/
@[simp] theorem shiftAmount_shiftOperand : shiftAmount (shiftOperand shamt) = shamt.toNat := by
  rw [shiftAmount_eq_mod, shiftOperand, BitVec.toNat_setWidth_of_le (by decide)]
  exact Nat.mod_eq_of_lt shamt.isLt

theorem alu_sll_shiftOperand : alu .sll (shiftOperand shamt) x = x <<< shamt.toNat := by
  rw [alu, shiftAmount_shiftOperand]

theorem alu_srl_shiftOperand : alu .srl (shiftOperand shamt) x = x >>> shamt.toNat := by
  rw [alu, shiftAmount_shiftOperand]

theorem alu_sra_shiftOperand :
    alu .sra (shiftOperand shamt) x = x.sshiftRight shamt.toNat := by
  rw [alu, shiftAmount_shiftOperand]

end AluShiftOperand

/-! ### The instructions -/

/-- The family's shape (R230), with the ALU's result in the form the instruction's rule gives it. -/
theorem opImm_effect_of_alu_eq {op : AluOp} {a v : Word} {rd rs1 : RegIdx} {s : State}
    (hlinked : s.Linked) (hresult : alu op a (s.readReg rs1) = v) :
    ∃ t, opImm op a rd rs1 s = .next t ∧ Effect rd v (s.pc + 4#32) s t :=
  hresult ▸ opImm_effect op a rd rs1 hlinked

/-- Settles O26: the family's shape with the ALU's sum. -/
theorem addiEffect : Obligations.AddiEffect := by
  intro rd rs1 imm
  exact ⟨decode_encode (i := .addi rd rs1 imm) rfl,
    fun _ hlinked => opImm_effect_of_alu_eq hlinked (alu_add_immI ..)⟩

/-- Settles O27: the family's shape with the ALU's exclusive or. -/
theorem xoriEffect : Obligations.XoriEffect := by
  intro rd rs1 imm
  exact ⟨decode_encode (i := .xori rd rs1 imm) rfl,
    fun _ hlinked => opImm_effect_of_alu_eq hlinked (alu_xor_immI ..)⟩

/-- Settles O28: the family's shape with the ALU's or. -/
theorem oriEffect : Obligations.OriEffect := by
  intro rd rs1 imm
  exact ⟨decode_encode (i := .ori rd rs1 imm) rfl,
    fun _ hlinked => opImm_effect_of_alu_eq hlinked (alu_or_immI ..)⟩

/-- Settles O29: the family's shape with the ALU's and. -/
theorem andiEffect : Obligations.AndiEffect := by
  intro rd rs1 imm
  exact ⟨decode_encode (i := .andi rd rs1 imm) rfl,
    fun _ hlinked => opImm_effect_of_alu_eq hlinked (alu_and_immI ..)⟩

/-- Settles O30: the decoder keeps `instr[31:25]` as an operand that `exec` does not look at. -/
theorem slliEffect : Obligations.SlliEffect := by
  intro rd rs1 shamt ignored
  exact ⟨decode_encode (i := .slli rd rs1 shamt ignored) rfl,
    fun _ hlinked => opImm_effect_of_alu_eq hlinked (alu_sll_shiftOperand ..)⟩

/-- Settles O31: the family's shape with the ALU's logical right shift. -/
theorem srliEffect : Obligations.SrliEffect := by
  intro rd rs1 shamt
  exact ⟨decode_encode (i := .srli rd rs1 shamt) rfl,
    fun _ hlinked => opImm_effect_of_alu_eq hlinked (alu_srl_shiftOperand ..)⟩

/-- Settles O32: the family's shape with the ALU's arithmetic right shift. -/
theorem sraiEffect : Obligations.SraiEffect := by
  intro rd rs1 shamt
  exact ⟨decode_encode (i := .srai rd rs1 shamt) rfl,
    fun _ hlinked => opImm_effect_of_alu_eq hlinked (alu_sra_shiftOperand ..)⟩

end Sys2Proof.Machine
end

section
/-! PROOFS. The statement about JAL (44_jal.md R260): the printed layout is the encoding of the
offset assembled from its groups, and the jump links `pc + 4` and goes to `pc + imm_j`. -/

namespace Sys2Proof.Machine

/-! ### The layout -/

/-- The J-type layout of an offset given by its groups lists them in the word's order
(30_encoding.md R83): a group is the lowest in the offset once those below it are shifted out. -/
theorem wordJ_append (b20 b11 : BitVec 1) (b10 : BitVec 10) (b19 : BitVec 8) (rd : RegIdx)
    (op : BitVec 7) :
    wordJ (b20 ++ b19 ++ b11 ++ b10 ++ 0#1) rd op = b20 ++ b10 ++ b11 ++ b19 ++ rd ++ op := by
  simp [wordJ, BitVec.extractLsb'_append_eq_of_le, BitVec.extractLsb'_append_eq_right,
    -Nat.reduceAdd]

/-- An offset assembled over a 0 bit is even (30_encoding.md R87). -/
theorem wellFormed_jal_append_zero (rd : RegIdx) (upper : BitVec 20) :
    (Instr.jal rd (upper ++ 0#1)).wellFormed = true := by
  have heven : (upper ++ 0#1).getLsbD 0 = false := BitVec.getLsbD_append
  exact congrArg not heven

/-! ### The target and the instruction -/

/-- The ALU computes the target with the offset as its first operand. -/
theorem alu_add_immJ (offset : BitVec 21) (x : Word) :
    alu .add (immJ offset) x = x + offset.signExtend 32 := BitVec.add_comm ..

/-- Settles O33: the layout is the word of an even offset, which decodes to its instruction; the
tick is the jump's, whose link value is `pc + 4` in a linked state. -/
theorem jalEffect : Obligations.JalEffect := by
  refine ⟨fun rd b20 b11 b10 b19 => ?layout, fun rd offset s hlinked => ?tick⟩
  case layout =>
    rw [← wordJ_append]
    exact decode_encode (wellFormed_jal_append_zero rd (b20 ++ b19 ++ b11 ++ b10))
  case tick =>
    rw [← hlinked, ← alu_add_immJ]
    exact execJal_effect rd offset s

end Sys2Proof.Machine
end

section
/-! PROOFS. The statements about the byte loads (45_load.md R271, R274): each is the decoding of its
own encoding, and the family's one shape (R270) with one byte of the data word, extended. -/

namespace Sys2Proof.Machine

/-! ### The address -/

/-- The ALU computes the effective address with the immediate as its first operand (R270). -/
theorem effectiveAddr_eq (s : State) (rs1 : RegIdx) (imm : BitVec 12) :
    s.effectiveAddr rs1 imm = s.readReg rs1 + imm.signExtend 32 :=
  alu_add_immI imm (s.readReg rs1)

/-- The family's shape (R270), with the address in the form the rules give it. -/
theorem load_effect_of_addr_eq {rs1 : RegIdx} {imm : BitVec 12} {s : State} {addr : Word}
    (hlinked : s.Linked) (haddr : addr = s.readReg rs1 + imm.signExtend 32) (width : Width)
    (signed : Bool) (rd : RegIdx) :
    ∃ t, loadInto Config.misalignedLoadPolicy width signed rd rs1 imm s = .next t ∧
      Effect rd (s.memRead addr width signed) (s.pc + 4#32) s t := by
  rw [haddr, ← effectiveAddr_eq]
  exact load_effect width signed rd rs1 imm hlinked

/-! ### The byte read -/

/-- A signed byte read is the byte lane of `addr[1:0]`, sign-extended (20_memory.md R54, R55). -/
theorem memRead_byte_signed (s : State) (addr : Word) :
    s.memRead addr .byte true = ((s.dataWord (addr.extractLsb' 2 30)).extractLsb'
      (8 * (addr.extractLsb' 0 2).toNat) 8).signExtend 32 := rfl

/-- An unsigned byte read is the byte lane of `addr[1:0]`, zero-extended. -/
theorem memRead_byte_unsigned (s : State) (addr : Word) :
    s.memRead addr .byte false = ((s.dataWord (addr.extractLsb' 2 30)).extractLsb'
      (8 * (addr.extractLsb' 0 2).toNat) 8).setWidth 32 := rfl

/-- Zero extension keeps the byte's value, so an unsigned byte read is in 0..0xff. -/
theorem toNat_memRead_byte_unsigned_le (s : State) (addr : Word) :
    (s.memRead addr .byte false).toNat ≤ 0xff := by
  have hvalue : (s.memRead addr .byte false).toNat =
      (selectByte (s.dataWord (wordAddr addr)) addr).toNat :=
    toNat_extendTo32_false (by decide) _
  rw [hvalue]
  exact Nat.le_of_lt_succ (BitVec.isLt _)

/-! ### The instructions -/

/-- Settles O36: the family's shape with the signed byte read. -/
theorem lbEffect : Obligations.LbEffect := by
  intro rd rs1 imm
  refine ⟨decode_encode (i := .lb rd rs1 imm) rfl, fun s addr hlinked haddr => ?tick⟩
  case tick =>
    rw [← memRead_byte_signed]
    exact load_effect_of_addr_eq hlinked haddr .byte true rd

/-- Settles O39: the family's shape with the unsigned byte read, whose range is a byte's. -/
theorem lbuEffect : Obligations.LbuEffect := by
  intro rd rs1 imm
  refine ⟨decode_encode (i := .lbu rd rs1 imm) rfl, fun s addr hlinked haddr => ?tick⟩
  case tick =>
    obtain ⟨t, hexec, heffect⟩ := load_effect_of_addr_eq hlinked haddr .byte false rd
    exact ⟨t, s.memRead addr .byte false, hexec, memRead_byte_unsigned s addr,
      toNat_memRead_byte_unsigned_le s addr, heffect⟩

end Sys2Proof.Machine
end

section
/-! PROOFS. The statement about the unrecognised opcodes (46_other_encodings.md R290): the decoder's
no-op answer counts no data access, and the meaning only lets `pc` advance. -/

namespace Sys2Proof.Machine

/-- An opcode that is none of the three has its own constructor (30_encoding.md R94). -/
theorem wellFormed_unrecognised {opcode : BitVec 7} (rest : BitVec 25) (hload : opcode ≠ opcodeLoad)
    (himm : opcode ≠ opcodeOpImm) (hjal : opcode ≠ opcodeJal) :
    (Instr.unrecognised opcode rest).wellFormed = true := by
  simp [Instr.wellFormed, isRecognisedOpcode, hload, himm, hjal]

/-- A no-op answer of the decoder block counts no data-memory access (20_memory.md R61). -/
theorem dataAccess_of_controlOf_noop {s : State} {b : Bundle}
    (h : controlOf s.fetchWord = .noop b) : dataAccess s = none := by
  rw [dataAccess, h]

/-- An unrecognised opcode completes, and in a linked state goes to `pc + 4` (R290). -/
theorem execUnrecognised_noRegEffect (opcode : BitVec 7) (rest : BitVec 25) {s : State}
    (hlinked : s.Linked) :
    ∃ t, execUnrecognised opcode rest s = .next t ∧ NoRegEffect (s.pc + 4#32) s t :=
  ⟨s.advance, rfl, hlinked ▸ noRegEffect_advance s⟩

/-- Settles O42: the word is the encoding of its constructor, the decoder block answers it with the
no-op, and the tick is an advance alone. -/
theorem unrecognisedOpcodeNoop : Obligations.UnrecognisedOpcodeNoop := by
  refine ⟨fun opcode rest hload himm hjal => ⟨?decodes, fun s hfetch => ?noAccess⟩,
    fun opcode rest s hlinked => execUnrecognised_noRegEffect opcode rest hlinked⟩
  case decodes => exact decode_encode (wellFormed_unrecognised rest hload himm hjal)
  case noAccess =>
    have hop : fieldOpcode s.fetchWord = opcode := by rw [hfetch, fieldOpcode_append]
    subst hop
    exact dataAccess_of_controlOf_noop (controlOf_of_unrecognised himm hjal hload)

end Sys2Proof.Machine
end

section
/-! PROOFS. The statements about decoding and encoding (30_encoding.md): words and well-formed
instructions determine each other, and the decoder answers by the opcode table. -/

namespace Sys2Proof

open Sys2Proof.Machine

/-! ### Decoding gives an encoded instruction back -/

/-- The four bytes of a word, in memory order, decode as the word does. -/
theorem decodeBytes_bytesOfWord (w : Word) (rest : List Byte) :
    decodeBytes (bytesOfWord w ++ rest) = .ok (decode w, rest) := by
  calc decodeBytes (bytesOfWord w ++ rest)
      = .ok (decode (wordOfBytes (byteOfWord w 0) (byteOfWord w 1) (byteOfWord w 2)
          (byteOfWord w 3)), rest) := decodeBytes_cons ..
    _ = .ok (decode w, rest) := by rw [wordOfBytes_byteOfWord]

/-- Settles O21: the fields of the encoded word lead the decoder back to the instruction, and the
word's bytes decode as the word does. -/
theorem decodeOfEncode : Obligations.DecodeOfEncode := by
  intro i hwf
  refine ⟨decode_encode hwf, fun rest => ?bytes⟩
  case bytes => rw [decodeBytes_bytesOfWord, decode_encode hwf]

/-! ### Encoding gives a decoded word back -/

/-- `funct3` has eight values: the one left over by the decoders' last arm is `111`. -/
theorem funct3_cases (f : BitVec 3) : f = 0b000#3 ∨ f = 0b001#3 ∨ f = 0b010#3 ∨ f = 0b011#3 ∨
    f = 0b100#3 ∨ f = 0b101#3 ∨ f = 0b110#3 ∨ f = 0b111#3 := by
  revert f
  decide

section FieldsGiveTheWord

variable {w : Word} {funct3 : BitVec 3}

/-- A word with a given opcode and `funct3` is the I-type layout of its other fields. -/
theorem wordI_of_fields {op : BitVec 7} (hop : fieldOpcode w = op) (hf3 : fieldFunct3 w = funct3) :
    wordI (fieldImmI w) (fieldRs1 w) funct3 (fieldRd w) op = w := by
  rw [← hop, ← hf3, wordI_fields]

/-- An OP-IMM word with a given `funct3` and `funct7` is the shift layout of its other fields. -/
theorem wordShift_of_fields {funct7 : BitVec 7} (hop : fieldOpcode w = opcodeOpImm)
    (hf3 : fieldFunct3 w = funct3) (hf7 : fieldFunct7 w = funct7) :
    wordShift funct7 (fieldRs2 w) (fieldRs1 w) funct3 (fieldRd w) = w := by
  rw [wordShift, ← hf7, fieldImmI_split, wordI_of_fields hop hf3]

end FieldsGiveTheWord

/-- OP-IMM: each arm keeps the fields that its encoding lays out again, and fixes the rest. -/
theorem wellFormed_and_encode_decodeOpImm {w : Word} (hop : fieldOpcode w = opcodeOpImm) :
    (decodeOpImm w).wellFormed = true ∧ encode (decodeOpImm w) = w := by
  unfold decodeOpImm
  split_ifs with h0 h1 h2 h3 h4 h5 hsrl hsra h6
  · exact ⟨rfl, wordI_of_fields hop h0⟩
  · exact ⟨rfl, wordShift_of_fields hop h1 rfl⟩
  · exact ⟨rfl, wordI_of_fields hop h2⟩
  · exact ⟨rfl, wordI_of_fields hop h3⟩
  · exact ⟨rfl, wordI_of_fields hop h4⟩
  · exact ⟨rfl, wordShift_of_fields hop h5 hsrl⟩
  · exact ⟨rfl, wordShift_of_fields hop h5 hsra⟩
  · exact ⟨by simp [Instr.wellFormed, hsrl, hsra], wordShift_of_fields hop h5 rfl⟩
  · exact ⟨rfl, wordI_of_fields hop h6⟩
  · have h7 : fieldFunct3 w = 0b111#3 := by simpa [*] using funct3_cases (fieldFunct3 w)
    exact ⟨rfl, wordI_of_fields hop h7⟩

/-- LOAD: the same, with the I-type layout alone. -/
theorem wellFormed_and_encode_decodeLoad {w : Word} (hop : fieldOpcode w = opcodeLoad) :
    (decodeLoad w).wellFormed = true ∧ encode (decodeLoad w) = w := by
  unfold decodeLoad
  split_ifs with h0 h1 h2 h3 h4 h5 h6
  · exact ⟨rfl, wordI_of_fields hop h0⟩
  · exact ⟨rfl, wordI_of_fields hop h1⟩
  · exact ⟨rfl, wordI_of_fields hop h2⟩
  · exact ⟨rfl, wordI_of_fields hop h3⟩
  · exact ⟨rfl, wordI_of_fields hop h4⟩
  · exact ⟨rfl, wordI_of_fields hop h5⟩
  · exact ⟨rfl, wordI_of_fields hop h6⟩
  · have h7 : fieldFunct3 w = 0b111#3 := by simpa [*] using funct3_cases (fieldFunct3 w)
    exact ⟨rfl, wordI_of_fields hop h7⟩

/-- Settles O22: by opcode class, each of which keeps every bit of the word in an operand. -/
theorem encodeOfDecode : Obligations.EncodeOfDecode := by
  intro w
  unfold decode
  split_ifs with himm hjal hload
  · exact wellFormed_and_encode_decodeOpImm himm
  · have heven : (fieldImmJ w).getLsbD 0 = false := fieldImmJ_bit w 0 (by decide)
    exact ⟨congrArg not heven, by rw [encode, ← hjal, wordJ_fields]⟩
  · exact wellFormed_and_encode_decodeLoad hload
  · exact ⟨by simp [Instr.wellFormed, isRecognisedOpcode, himm, hjal, hload], append_fields w⟩

/-! ### The opcode table -/

/-- The first row that matches an encoded word is the instruction's own. -/
theorem firstMatch_encode : ∀ i : Instr, Laws.TableRow.Statement i
  | .addi _ _ _ => Laws.TableRow.addi _ _ _
  | .slli _ _ _ _ => Laws.TableRow.slli _ _ _ _
  | .xori _ _ _ => Laws.TableRow.xori _ _ _
  | .srli _ _ _ => Laws.TableRow.srli _ _ _
  | .srai _ _ _ => Laws.TableRow.srai _ _ _
  | .ori _ _ _ => Laws.TableRow.ori _ _ _
  | .andi _ _ _ => Laws.TableRow.andi _ _ _
  | .jal _ _ => Laws.TableRow.jal _ _
  | .lb _ _ _ => Laws.TableRow.lb _ _ _
  | .lh _ _ _ => Laws.TableRow.lh _ _ _
  | .lw _ _ _ => Laws.TableRow.lw _ _ _
  | .lbu _ _ _ => Laws.TableRow.lbu _ _ _
  | .lhu _ _ _ => Laws.TableRow.lhu _ _ _
  | .reservedOpImm010 _ _ _ => Laws.TableRow.reservedOpImm010 _ _ _
  | .reservedOpImm011 _ _ _ => Laws.TableRow.reservedOpImm011 _ _ _
  | .reservedShiftRightType _ _ _ _ => Laws.TableRow.reservedShiftRightType _ _ _ _
  | .reservedLoad011 _ _ _ => Laws.TableRow.reservedLoad011 _ _ _
  | .reservedLoad110 _ _ _ => Laws.TableRow.reservedLoad110 _ _ _
  | .reservedLoad111 _ _ _ => Laws.TableRow.reservedLoad111 _ _ _
  | .unrecognised _ _ => Laws.TableRow.unrecognised _ _

/-- Settles O23: a word is the encoding of the instruction it decodes to, whose row is the first
that matches. -/
theorem decodeFollowsOpcodeTable : Obligations.DecodeFollowsOpcodeTable := by
  intro w
  obtain ⟨hwf, hencode⟩ := encodeOfDecode w
  calc firstMatch w opcodeRows = firstMatch (encode (decode w)) opcodeRows := by rw [hencode]
    _ = some (decode w).mnemonic := firstMatch_encode (decode w) hwf

/-- Settles O24: the decoder evaluated on each of the words. -/
theorem sampleWordsDecode : Obligations.SampleWordsDecode := by
  unfold Obligations.SampleWordsDecode
  decide

/-! ### The step -/

/-- All 32 bits of a table word are taken. -/
theorem tableWord_32 (w : Nat) : tableWord 32 w = BitVec.ofNat 32 w := by
  apply BitVec.eq_of_toNat_eq
  simp [tableWord]

/-- Settles O25: the step executes what the fetched word decodes to, and the word placed at `pc` is
the one fetched. -/
theorem stepRunsDecodedInstruction : Obligations.StepRunsDecodedInstruction := by
  refine ⟨fun s i hwf hfetch => ?encoded, fun s w _ => ?placed⟩
  case encoded => rw [step, hfetch, decode_encode hwf]
  case placed => rw [step, State.withFetchWord, fetchWord_withFetch, tableWord_32]

end Sys2Proof
end

section
/-! PROOFS. The statement about the J-type immediate (30_encoding.md R87). -/

namespace Sys2Proof.Machine

/-- Below bit 20 the J-type immediate is its field, and from there up it repeats bit 20. -/
theorem immJ_bit (offset : BitVec 21) {i : Nat} (hi : i < 32) :
    (immJ offset).getLsbD i = if i ≤ 19 then offset.getLsbD i else offset.getLsbD 20 := by
  rw [immJ, BitVec.getLsbD_signExtend, decide_eq_true hi, Bool.true_and,
    BitVec.msb_eq_getLsbD_last]
  obtain h | rfl | h : i < 20 ∨ i = 20 ∨ 20 < i := by omega
  · rw [if_pos (by omega), if_pos (by omega)]
  · rfl
  · rw [if_neg (by omega), if_neg (by omega)]

/-- Bit 0 of the J-type field is 0 for every word (30_encoding.md R83). -/
theorem fieldImmJ_even (w : Word) : (fieldImmJ w).getLsbD 0 = false :=
  fieldImmJ_bit w 0 (by decide)

/-- A bit vector whose bit 0 is 0 has an even signed value. -/
theorem toInt_emod_two_of_even {n : Nat} {v : BitVec (n + 1)} (heven : v.getLsbD 0 = false) :
    v.toInt % 2 = 0 := by
  have htoNat : v.toNat % 2 = 0 := by simpa [BitVec.getLsbD, Nat.testBit_zero] using heven
  rw [BitVec.toInt_eq_toNat_cond]
  split <;> omega

/-- Settles O19: each bit of the immediate is a bit of the field, hence of the word; the range is
that of an even 21-bit signed number. -/
theorem jtypeImmediateAssembled : Obligations.JtypeImmediateAssembled := by
  intro w
  refine ⟨?zero, fun i hlo hhi => ?b1_10, ?b11, fun i hlo hhi => ?b12_19, fun i hlo hhi => ?sign,
    ?lower, ?upper⟩
  case zero => rw [immJ_bit _ (by decide), if_pos (by decide), fieldImmJ_even]
  case b1_10 =>
    rw [immJ_bit _ (by omega), if_pos (by omega), fieldImmJ_bit w i (by omega), if_neg (by omega),
      if_pos (by omega), Nat.add_comm]
  case b11 => rw [immJ_bit _ (by decide), if_pos (by decide)]; exact fieldImmJ_bit w 11 (by decide)
  case b12_19 =>
    rw [immJ_bit _ (by omega), if_pos (by omega), fieldImmJ_bit w i (by omega), if_neg (by omega),
      if_neg (by omega), if_neg (by omega), if_pos (by omega)]
  case sign =>
    rw [immJ_bit _ (by omega), if_neg (by omega)]
    exact fieldImmJ_bit w 20 (by decide)
  case lower =>
    rw [toInt_immJ]
    exact BitVec.le_toInt (fieldImmJ w)
  case upper =>
    have hlt : (fieldImmJ w).toInt < 2 ^ 20 := BitVec.toInt_lt
    have heven := toInt_emod_two_of_even (fieldImmJ_even w)
    rw [toInt_immJ]
    omega

end Sys2Proof.Machine
end

section
/-! PROOFS. The invariant of the machine (10_state.md R29, R31), what a step and the environment
keep of it, and the statements about a step's frame that it rests on. -/

namespace Sys2Proof.Machine

/-! ### The frame of a step -/

/-- No step changes a memory: it writes a register and moves the counters (20_memory.md R59). -/
theorem step_memories {s t : State} (hstep : step s = .next t) :
    t.imem = s.imem ∧ t.dmem = s.dmem := by
  obtain ⟨-, rfl⟩ | ⟨-, ⟨v, rfl⟩ | rfl | ⟨-, rfl⟩⟩ := step_next hstep
  all_goals simp

/-- Settles O55: both lists of bytes are those of the state before. -/
theorem coreNeverWritesMemory : Obligations.CoreNeverWritesMemory := by
  intro s t hstep
  obtain ⟨himem, hdmem⟩ := step_memories hstep
  exact ⟨himem, hdmem, sameMemory_of_eq himem hdmem, rfl⟩

/-- Settles O3: a register that changed would be the one of the `rd` field, and not register 0. -/
theorem writeToRegisterZeroDropped : Obligations.WriteToRegisterZeroDropped := by
  intro s t hrd hstep r
  by_contra hchanged
  obtain ⟨hr, hr0⟩ := oneRegisterWrittenPerTick s t hstep r hchanged
  exact hr0 (hr.trans hrd)

/-- Settles O7: with and without a JAL, `pc_inc` is computed from the value that `pc` takes. -/
theorem tickEstablishesLink : Obligations.TickEstablishesLink := by
  intro s t hstep
  by_cases hjal : fieldOpcode s.fetchWord = opcodeJal
  · exact (step_pc_of_jal hstep hjal).2
  · obtain ⟨hpc, hinc⟩ := step_pc_of_not_jal hstep hjal
    rw [State.Linked, hinc, hpc]

/-! ### Bit 0 of the program counter -/

/-- Adding an even value keeps bit 0. -/
theorem getLsbD_zero_add_of_even (x : Word) {y : Word} (hy : y.getLsbD 0 = false) :
    (x + y).getLsbD 0 = x.getLsbD 0 := by
  rw [BitVec.getLsbD_add (by decide), hy, Bool.false_xor, BitVec.carry_zero, Bool.xor_false]

/-- A jump by an even offset keeps bit 0 (44_jal.md R261). -/
theorem getLsbD_zero_add_immJ (x : Word) {offset : BitVec 21} (heven : offset.getLsbD 0 = false) :
    (x + immJ offset).getLsbD 0 = x.getLsbD 0 :=
  getLsbD_zero_add_of_even x ((immJ_bit offset (by decide)).trans heven)

/-- In a linked state `pc` moves by 4 or by a J-type immediate, both even (10_state.md R31). -/
theorem step_keeps_pcEven {s t : State} (hlinked : s.Linked) (heven : s.PcEven)
    (hstep : step s = .next t) : t.PcEven := by
  by_cases hjal : fieldOpcode s.fetchWord = opcodeJal
  · rw [State.PcEven, (step_pc_of_jal hstep hjal).1, getLsbD_zero_add_immJ _ (fieldImmJ_even _)]
    exact heven
  · rw [State.PcEven, (step_pc_of_not_jal hstep hjal).1, hlinked, getLsbD_zero_add_of_even _ rfl]
    exact heven

/-! ### The invariant -/

/-- Settles O51: the memories stay as they are, and each counter's part has its own lemma. -/
theorem stepKeepsInvariant : Obligations.StepKeepsInvariant := by
  intro s t ⟨⟨hi, hd⟩, hlinked, heven⟩ hstep
  obtain ⟨himem, hdmem⟩ := step_memories hstep
  exact ⟨⟨himem ▸ hi, hdmem ▸ hd⟩, tickEstablishesLink s t hstep,
    step_keeps_pcEven hlinked heven hstep⟩

/-- Settles O52: nothing is listed in a memory, and the counters are 0 and 4. -/
theorem resetMeetsInvariant : Obligations.ResetMeetsInvariant :=
  ⟨⟨wf_nil, wf_nil⟩, rfl, rfl⟩

/-- Settles O53: a reset leaves the memories and sets the counters as at power-on; a placed word
leaves the counters and keeps the canonical form. -/
theorem environmentKeepsInvariant : Obligations.EnvironmentKeepsInvariant := by
  intro s wa w ⟨⟨hi, hd⟩, hcounters⟩
  exact ⟨⟨⟨hi, hd⟩, resetMeetsInvariant.2⟩, ⟨⟨wf_placeWord wa w hi, hd⟩, hcounters⟩,
    ⟨⟨hi, wf_placeWord wa w hd⟩, hcounters⟩⟩

end Sys2Proof.Machine
end

section
/-! PROOFS. The statements about bytes and words of the two memories (20_memory.md R55, R65, R67,
R69): byte lanes, and reads after the platform holds a word. -/

namespace Sys2Proof.Machine

/-! ### Byte lanes -/

/-- The bytes of an assembled word are the bytes it was assembled from. -/
theorem byteOfWord_wordOfBytes (b0 b1 b2 b3 : Byte) :
    byteOfWord (wordOfBytes b0 b1 b2 b3) 0 = b0 ∧ byteOfWord (wordOfBytes b0 b1 b2 b3) 1 = b1 ∧
      byteOfWord (wordOfBytes b0 b1 b2 b3) 2 = b2 ∧
      byteOfWord (wordOfBytes b0 b1 b2 b3) 3 = b3 := by
  simp [byteOfWord, wordOfBytes, BitVec.extractLsb'_append_eq_of_le,
    BitVec.extractLsb'_append_eq_right, -Nat.reduceAdd]

/-- Byte `k` of a word in memory is the byte at byte address `4w + k` (R55). -/
theorem byteAt_eq_byteOfWord_wordAt (platform : Nat → Byte) (m : Memory) (wa : WordAddr) {k : Nat}
    (hk : k < 4) :
    Memory.byteAt platform m (4 * wa.toNat + k) = byteOfWord (Memory.wordAt platform m wa) k := by
  obtain ⟨h0, h1, h2, h3⟩ := byteOfWord_wordOfBytes (Memory.byteAt platform m (4 * wa.toNat))
    (Memory.byteAt platform m (4 * wa.toNat + 1)) (Memory.byteAt platform m (4 * wa.toNat + 2))
    (Memory.byteAt platform m (4 * wa.toNat + 3))
  obtain rfl | rfl | rfl | rfl : k = 0 ∨ k = 1 ∨ k = 2 ∨ k = 3 := by omega
  · exact h0.symm
  · exact h1.symm
  · exact h2.symm
  · exact h3.symm

/-- The byte addresses `4w` to `4w + 3` lie in word `w` (R50). -/
theorem wordAddr_ofNat (wa : WordAddr) {k : Nat} (hk : k < 4) :
    wordAddr (BitVec.ofNat 32 (4 * wa.toNat + k)) = wa := by
  have hwa := wa.isLt
  apply BitVec.eq_of_toNat_eq
  rw [wordAddr, BitVec.extractLsb'_toNat, BitVec.toNat_ofNat, Nat.shiftRight_eq_div_pow]
  omega

/-- The two low bits of byte address `4w + k` are the lane `k`. -/
theorem toNat_lane_ofNat (wa : WordAddr) {k : Nat} (hk : k < 4) :
    ((BitVec.ofNat 32 (4 * wa.toNat + k)).extractLsb' 0 2).toNat = k := by
  have hwa := wa.isLt
  rw [BitVec.extractLsb'_toNat, BitVec.toNat_ofNat, Nat.shiftRight_zero]
  omega

/-- An unsigned byte load at `4w + k` returns byte `k` of the data word `w`. -/
theorem memRead_byte_ofNat (s : State) (wa : WordAddr) {k : Nat} (hk : k < 4) :
    s.memRead (BitVec.ofNat 32 (4 * wa.toNat + k)) .byte false =
      ((s.dataWord wa).extractLsb' (8 * k) 8).setWidth 32 := by
  rw [memRead_byte_unsigned, toNat_lane_ofNat wa hk, ← wordAddr, wordAddr_ofNat wa hk]

/-- Settles O16: both memories assemble a word from its four bytes, and a word load at `4w` is the
data word itself. -/
theorem memoryLittleEndian : Obligations.MemoryLittleEndian := by
  intro s wa k hk
  refine ⟨byteAt_eq_byteOfWord_wordAt _ _ wa hk, byteAt_eq_byteOfWord_wordAt _ _ wa hk, ?load⟩
  case load =>
    have hword : s.memRead (BitVec.ofNat 32 (4 * wa.toNat)) .word false = s.dataWord wa :=
      congrArg s.dataWord (wordAddr_ofNat wa (k := 0) (by decide))
    rw [memRead_byte_ofNat s wa hk, hword]

/-! ### Words held by the platform -/

/-- What every word reads as after a word is placed. -/
theorem wordAt_placeWord (platform : Nat → Byte) (wa wb : WordAddr) (w : Word) (m : Memory) :
    Memory.wordAt platform (Memory.placeWord wa w m) wb =
      if wb = wa then w else Memory.wordAt platform m wb := by
  split
  case isTrue h => rw [h, wordAt_placeWord_self]
  case isFalse h => exact wordAt_placeWord_ne platform h w m

/-- Settles O17: the one memory reads as after a placed word, the other is the same list. -/
theorem platformWordReadBack : Obligations.PlatformWordReadBack := by
  intro s wa wb w
  exact ⟨wordAt_placeWord _ wa wb w s.dmem, wordAt_placeWord _ wa wb w s.imem, rfl, rfl⟩

end Sys2Proof.Machine
end

section
/-! SUPPORT. What `funct3` and `funct7` select in the two dispatching classes, said once for the
decoder block and once for the meanings (41_decoder.md sections 3 and 5), and the inversion of the
decoder block's bundle. -/

namespace Sys2Proof.Machine

variable {w : Word}

/-! ### OP-IMM -/

/-- The ALU operation of an OP-IMM word; none for a reserved word (R166, R168, R173). -/
def opImmOp (w : Word) : Option AluOp :=
  if fieldFunct3 w = 0b000#3 then some .add
  else if fieldFunct3 w = 0b001#3 then some .sll
  else if fieldFunct3 w = 0b100#3 then some .xor
  else if fieldFunct3 w = 0b110#3 then some .or
  else if fieldFunct3 w = 0b111#3 then some .and
  else if fieldFunct3 w = 0b101#3 ∧ fieldFunct7 w = 0b0000000#7 then some .srl
  else if fieldFunct3 w = 0b101#3 ∧ fieldFunct7 w = 0b0100000#7 then some .sra
  else none

/-- The operand of an OP-IMM word: the shift amount for the shifts, else the immediate (R167). -/
def opImmOperand (w : Word) : Word :=
  if fieldFunct3 w = 0b001#3 ∨ fieldFunct3 w = 0b101#3 then rawShamt w else rawImmI w

section ShiftRight

variable (h : fieldFunct3 w = 0b101#3)

include h

theorem opImmOp_of_shiftRight : opImmOp w =
    if fieldFunct7 w = 0b0000000#7 then some .srl
    else if fieldFunct7 w = 0b0100000#7 then some .sra else none := by
  simp [opImmOp, h]

theorem opImmOperand_of_shiftRight : opImmOperand w = rawShamt w := by
  simp [opImmOperand, h]

theorem decodeOpImm_of_shiftRight : decodeOpImm w =
    if fieldFunct7 w = 0b0000000#7 then .srli (fieldRd w) (fieldRs1 w) (fieldRs2 w)
    else if fieldFunct7 w = 0b0100000#7 then .srai (fieldRd w) (fieldRs1 w) (fieldRs2 w)
    else .reservedShiftRightType (fieldRd w) (fieldRs1 w) (fieldRs2 w) (fieldFunct7 w) := by
  simp [decodeOpImm, h]

/-- The block compares `funct7` as a number, in all its seven bits (R168). -/
theorem controlOpImm_of_shiftRight : controlOpImm w =
    if fieldFunct7 w = 0b0000000#7 then opImmAnswer w .srl (rawShamt w)
    else if fieldFunct7 w = 0b0100000#7 then opImmAnswer w .sra (rawShamt w)
    else .reserved (opImmClass w) := by
  rw [fieldFunct3] at h
  simp only [controlOpImm, h, BitVec.toNat_ofNat]
  split
  case h_1 heq =>
    have hsrl : fieldFunct7 w = 0b0000000#7 := BitVec.eq_of_toNat_eq heq
    rw [if_pos hsrl]
  case h_2 heq =>
    have hsra : fieldFunct7 w = 0b0100000#7 := BitVec.eq_of_toNat_eq heq
    rw [hsra]
    rfl
  case h_3 hsrl hsra =>
    rw [if_neg fun h7 => hsrl (congrArg BitVec.toNat h7),
      if_neg fun h7 => hsra (congrArg BitVec.toNat h7)]

end ShiftRight

/-- The values of `funct3` that select without `funct7`. -/
theorem funct3_cases_of_not_shiftRight {f : BitVec 3} (h : f ≠ 0b101#3) :
    f = 0b000#3 ∨ f = 0b001#3 ∨ f = 0b010#3 ∨ f = 0b011#3 ∨ f = 0b100#3 ∨ f = 0b110#3 ∨
      f = 0b111#3 := by
  simpa [h] using funct3_cases f

/-- The block's answer to an OP-IMM word. -/
theorem controlOpImm_eq_elim (w : Word) : controlOpImm w =
    (opImmOp w).elim (.reserved (opImmClass w)) fun op => opImmAnswer w op (opImmOperand w) := by
  by_cases hshift : fieldFunct3 w = 0b101#3
  · rw [controlOpImm_of_shiftRight hshift, opImmOp_of_shiftRight hshift,
      opImmOperand_of_shiftRight hshift]
    split_ifs <;> rfl
  · obtain h | h | h | h | h | h | h := funct3_cases_of_not_shiftRight hshift
    all_goals
      rw [opImmOp, opImmOperand, h]
      rw [fieldFunct3] at h
      rw [controlOpImm, h]
      rfl

/-- The meaning of an OP-IMM word. -/
theorem exec_decodeOpImm_eq_elim (w : Word) : exec (decodeOpImm w) =
    (opImmOp w).elim (reservedWord (fieldRd w))
      fun op => opImm op (opImmOperand w) (fieldRd w) (fieldRs1 w) := by
  by_cases hshift : fieldFunct3 w = 0b101#3
  · rw [decodeOpImm_of_shiftRight hshift, opImmOp_of_shiftRight hshift,
      opImmOperand_of_shiftRight hshift]
    split_ifs <;> rfl
  · obtain h | h | h | h | h | h | h := funct3_cases_of_not_shiftRight hshift
    all_goals
      rw [decodeOpImm, opImmOp, opImmOperand, h]
      rfl

/-! ### LOAD -/

/-- The width of a LOAD word; none for a reserved word (R171, R173). -/
def loadWidth (w : Word) : Option Width :=
  if fieldFunct3 w = 0b010#3 then some .word
  else if fieldFunct3 w = 0b001#3 ∨ fieldFunct3 w = 0b101#3 then some .half
  else if fieldFunct3 w = 0b000#3 ∨ fieldFunct3 w = 0b100#3 then some .byte
  else none

theorem loadWidth_eq_none_iff (w : Word) :
    loadWidth w = none ↔ fieldFunct3 w ∈ [0b011#3, 0b110#3, 0b111#3] := by
  unfold loadWidth
  generalize fieldFunct3 w = f
  revert f
  decide

/-- Bit 14 is the top bit of `funct3`, which gives the signedness (R171). -/
theorem getLsbD_14 (w : Word) : w.getLsbD 14 = (fieldFunct3 w).getLsbD 2 := by
  simp [fieldFunct3]

/-- The block's answer to a LOAD word. -/
theorem controlLoad_eq_elim (w : Word) : controlLoad w =
    (loadWidth w).elim (.reserved (loadClass w))
      fun width => .defined { loadClass w with ldWidth := some width } := by
  obtain h | h | h | h | h | h | h | h := funct3_cases (fieldFunct3 w)
  all_goals
    rw [loadWidth, h]
    rw [fieldFunct3] at h
    rw [controlLoad, h]
    rfl

/-- The meaning of a LOAD word. -/
theorem exec_decodeLoad_eq_elim (w : Word) : exec (decodeLoad w) =
    (loadWidth w).elim (reservedWord (fieldRd w))
      fun width => loadInto Config.misalignedLoadPolicy width (!w.getLsbD 14) (fieldRd w)
        (fieldRs1 w) (fieldImmI w) := by
  rw [getLsbD_14]
  obtain h | h | h | h | h | h | h | h := funct3_cases (fieldFunct3 w)
  all_goals
    rw [decodeLoad, loadWidth, h]
    rfl

/-! ### The bundle of any word -/

/-- OP-IMM: only the ALU's members depend on `funct3` and `funct7`. -/
theorem bundleOf_controlOf_of_opImm (himm : fieldOpcode w = opcodeOpImm) :
    bundleOf (controlOf w) = { opImmClass w with
      aluOp := opImmOp w, aluImm := (opImmOp w).map fun _ => opImmOperand w } := by
  rw [controlOf_of_opImm himm, controlOpImm_eq_elim]
  cases opImmOp w <;> rfl

/-- LOAD: only the width depends on `funct3`. -/
theorem bundleOf_controlOf_of_load (hload : fieldOpcode w = opcodeLoad) :
    bundleOf (controlOf w) = { loadClass w with ldWidth := loadWidth w } := by
  rw [controlOf_of_load hload]
  exact bundleOf_controlLoad w

/-- The bundle by opcode class: only the ALU's members vary inside OP-IMM, only the width inside
LOAD (41_decoder.md R175). -/
theorem bundleOf_controlOf_cases (w : Word) :
    (fieldOpcode w = opcodeOpImm ∧ bundleOf (controlOf w) =
      { opImmClass w with
        aluOp := opImmOp w, aluImm := (opImmOp w).map fun _ => opImmOperand w }) ∨
    (fieldOpcode w = opcodeJal ∧ bundleOf (controlOf w) = bundleOf (controlJal w)) ∨
    (fieldOpcode w = opcodeLoad ∧
      bundleOf (controlOf w) = { loadClass w with ldWidth := loadWidth w }) ∨
    (isRecognisedOpcode (fieldOpcode w) = false ∧ bundleOf (controlOf w) = defaultBundle w) := by
  by_cases himm : fieldOpcode w = opcodeOpImm
  · exact .inl ⟨himm, bundleOf_controlOf_of_opImm himm⟩
  by_cases hjal : fieldOpcode w = opcodeJal
  · exact .inr (.inl ⟨hjal, by rw [controlOf_of_jal hjal]⟩)
  by_cases hload : fieldOpcode w = opcodeLoad
  · exact .inr (.inr (.inl ⟨hload, bundleOf_controlOf_of_load hload⟩))
  · refine .inr (.inr (.inr ⟨by simp [isRecognisedOpcode, himm, hjal, hload], ?_⟩))
    rw [controlOf_of_unrecognised himm hjal hload]
    rfl

end Sys2Proof.Machine
end

section
/-! PROOFS. The decoder's outputs for an OP-IMM word (41_decoder.md section 3). -/

namespace Sys2Proof.Machine

/-- Settles O46: the class's outputs, with the operation and the operand that the fields select. -/
theorem decoderOpImmOutputs : Obligations.DecoderOpImmOutputs := by
  intro w himm
  rw [bundleOf_controlOf_of_opImm himm]
  refine ⟨rfl, rfl, rfl, rfl, rfl, rfl, rfl, fun hselected => ?operand⟩
  case operand =>
    obtain ⟨op, hop⟩ := Option.ne_none_iff_exists'.mp hselected
    exact (congrArg (Option.map fun _ => opImmOperand w) hop).trans (apply_ite some _ _ _)

end Sys2Proof.Machine
end

section
/-! PROOFS. The tick of the wired blocks is the instruction-level step (42_cpu_datapath.md), so the
machine never stops. -/

namespace Sys2Proof.Machine

/-- OP-IMM: both sides write the ALU's result, or the free value of a reserved word. -/
theorem exec_decodeOpImm_eq_commit (w : Word) (s : State) :
    exec (decodeOpImm w) s = .next (commit (bundleOf (controlOpImm w)) s) := by
  rw [exec_decodeOpImm_eq_elim, controlOpImm_eq_elim]
  cases opImmOp w <;> rfl

/-- LOAD: both sides write the extracted value, or the free value of a reserved word; a misaligned
load runs under the machine's policy. -/
theorem exec_decodeLoad_eq_commit (w : Word) (s : State) :
    exec (decodeLoad w) s = .next (commit (bundleOf (controlLoad w)) s) := by
  rw [exec_decodeLoad_eq_elim, controlLoad_eq_elim]
  cases loadWidth w with
  | none => rfl
  | some width => exact loadInto_ignoreLowBits ..

/-- Settles O50: by opcode class, each of whose ticks commits what its meaning answers. -/
theorem datapathRefinesStep : Obligations.DatapathRefinesStep := by
  intro s
  rw [datapathTick, tickBundle]
  by_cases himm : fieldOpcode s.fetchWord = opcodeOpImm
  · rw [step_of_opImm himm, controlOf_of_opImm himm, exec_decodeOpImm_eq_commit]
  by_cases hjal : fieldOpcode s.fetchWord = opcodeJal
  · rw [step_of_jal hjal, controlOf_of_jal hjal]
    rfl
  by_cases hload : fieldOpcode s.fetchWord = opcodeLoad
  · rw [step_of_load hload, controlOf_of_load hload, exec_decodeLoad_eq_commit]
  · rw [step_of_unrecognised (by simp [isRecognisedOpcode, himm, hjal, hload]),
      controlOf_of_unrecognised himm hjal hload]
    rfl

/-- Settles O54: a step always ends in the datapath's next state, so a run goes on, by induction on
the number of ticks. -/
theorem machineNeverStops : Obligations.MachineNeverStops := by
  intro s n
  induction n generalizing s with
  | zero => exact ⟨s, rfl⟩
  | succ n ih =>
    obtain ⟨t, hrun⟩ := ih (datapathTick s)
    have hstep : core.step s = .next (datapathTick s) := datapathRefinesStep s
    refine ⟨t, ?_⟩
    simpa only [Host.Core.run, hstep] using hrun

end Sys2Proof.Machine
end

section
/-! SUPPORT. The commit of a tick with the values on its wires given, and what those wires read of
the state (42_cpu_datapath.md sections 2 to 4). -/

namespace Sys2Proof.Machine

/-! ### The register file's tick -/

section RfTick

variable (enable : Bool) (dest : RegIdx) (value : Word) (s : State)

@[simp] theorem rfTick_pcInc : (rfTick enable dest value s).pcInc = s.pcInc := by
  cases enable with
  | false => rfl
  | true => exact writeReg_pcInc s dest value

@[simp] theorem rfTick_imem : (rfTick enable dest value s).imem = s.imem := by
  cases enable with
  | false => rfl
  | true => exact writeReg_imem s dest value

@[simp] theorem rfTick_dmem : (rfTick enable dest value s).dmem = s.dmem := by
  cases enable with
  | false => rfl
  | true => exact writeReg_dmem s dest value

@[simp] theorem rfTick_freeCount : (rfTick enable dest value s).freeCount = s.freeCount := by
  cases enable with
  | false => rfl
  | true => exact writeReg_freeCount s dest value

end RfTick

/-! ### The commit, with its wires given -/

/-- The commit of a bundle (R210), with the values on the write-back and target wires and the use of
a free value given. -/
def commitWires (b : Bundle) (value target : Word) (free : Bool) (s : State) : State :=
  pcTick b.pcLoad target
    (if free then (rfTick b.rfWe b.rfWsel value s).useFree else rfTick b.rfWe b.rfWsel value s)

section CommitWires

variable (b : Bundle) (value target : Word) (free : Bool) (s : State)

theorem commitWires_pc :
    (commitWires b value target free s).pc = if b.pcLoad then target else s.pcInc := by
  unfold commitWires pcTick
  split_ifs <;> simp

theorem commitWires_pcInc : (commitWires b value target free s).pcInc =
    (if b.pcLoad then target else s.pcInc) + 4#32 := by
  unfold commitWires pcTick
  split_ifs <;> simp

@[simp] theorem commitWires_imem : (commitWires b value target free s).imem = s.imem := by
  unfold commitWires pcTick
  split_ifs <;> simp

@[simp] theorem commitWires_dmem : (commitWires b value target free s).dmem = s.dmem := by
  unfold commitWires pcTick
  split_ifs <;> simp

theorem commitWires_freeCount : (commitWires b value target free s).freeCount =
    if free then s.freeCount + 1 else s.freeCount := by
  unfold commitWires pcTick
  split_ifs <;> simp

theorem commitWires_readReg (r : RegIdx) : (commitWires b value target free s).readReg r =
    if b.rfWe = true ∧ b.rfWsel ≠ 0#5 ∧ r = b.rfWsel then value else s.readReg r := by
  rw [← registerFileWritePort]
  unfold commitWires pcTick
  split_ifs <;> simp

/-- The commit does not look at the data memory. -/
theorem commitWires_withDmem (m : Memory) :
    commitWires b value target free { s with dmem := m } =
      { commitWires b value target free s with dmem := m } := by
  unfold commitWires pcTick rfTick State.writeReg
  split_ifs <;> rfl

end CommitWires

/-! ### What the wires read -/

/-- A word read depends on the cells of the data memory alone. -/
theorem dataWord_congr {s t : State} (h : t.dmem = s.dmem) (wa : WordAddr) :
    t.dataWord wa = s.dataWord wa := by
  simp [State.dataWord, h]

section Wires

variable {b : Bundle} {s s' : State}

/-- The load value reads the data memory at the ALU result, and only where a width is given. -/
theorem loadValue_congr (halu : aluResult b s' = aluResult b s)
    (hdata : b.ldWidth ≠ none → ∀ addr, aluResult b s = some addr →
      s'.dataWord (wordAddr addr) = s.dataWord (wordAddr addr)) :
    loadValue b s' = loadValue b s := by
  unfold loadValue
  rw [halu]
  cases haddr : aluResult b s with
  | none => rfl
  | some addr =>
    cases hwidth : b.ldWidth with
    | none => rfl
    | some width =>
      cases b.ldSigned with
      | none => rfl
      | some signed =>
        exact congrArg (fun raw => some (extract raw addr width signed))
          (hdata (by simp [hwidth]) addr haddr)

/-- The commit is that of the values on its own wires. -/
theorem commit_eq_commitWires (b : Bundle) (s : State) :
    commit b s = commitWires b (driven (wbValue b s) s) (driven (aluResult b s) s)
      (writesFree b s) s := rfl

/-- The commit from a state whose wires carry what they carry in `s`. -/
theorem commit_congr (halu : aluResult b s' = aluResult b s)
    (hload : loadValue b s' = loadValue b s) (hinc : s'.pcInc = s.pcInc)
    (hfree : s'.freeCount = s.freeCount) :
    commit b s' = commitWires b (driven (wbValue b s) s) (driven (aluResult b s) s)
      (writesFree b s) s' := by
  have hwb : wbValue b s' = wbValue b s := by rw [wbValue, wbValue, halu, hload, hinc]
  have hdriven : ∀ value, driven value s' = driven value s := fun value =>
    congrArg (fun n => value.getD (Config.freeValue n)) hfree
  have hwrites : writesFree b s' = writesFree b s := by rw [writesFree, writesFree, hwb]
  rw [commit_eq_commitWires, hwb, halu, hdriven, hdriven, hwrites]

/-- The ALU reads the register at `rs1` and no other, and that one only where the bundle selects
it (R204). -/
theorem aluResult_writeReg {r : RegIdx} (v : Word) (h : b.aluBSrc = some .reg → b.rfRsel1 ≠ r) :
    aluResult b (s.writeReg r v) = aluResult b s := by
  have hoperand : ∀ src, b.aluBSrc = some src →
      aluOperandB src b (s.writeReg r v) = aluOperandB src b s := by
    intro src hsrc
    cases src with
    | reg => exact (readReg_writeReg s r b.rfRsel1 v).trans (if_neg fun hr => h hsrc hr.1)
    | pc => exact writeReg_pc s r v
  unfold aluResult
  cases b.aluOp with
  | none => rfl
  | some op =>
    cases b.aluImm with
    | none => rfl
    | some a =>
      cases hsrc : b.aluBSrc with
      | none => rfl
      | some src => exact congrArg (fun x => some (alu op a x)) (hoperand src hsrc)

end Wires

/-! ### The bundle of a word, by its opcode -/

section BundleOfOpcode

variable {w : Word}

theorem isRecognisedOpcode_of_mem :
    ∀ op ∈ [opcodeOpImm, opcodeLoad, opcodeJal], isRecognisedOpcode op = true := by
  decide

/-- The register port is enabled by the three recognised opcodes (R165, R169, R170, R172). -/
theorem rfWe_iff : (bundleOf (controlOf w)).rfWe = true ↔
    fieldOpcode w ∈ [opcodeOpImm, opcodeLoad, opcodeJal] := by
  obtain ⟨hop, hb⟩ | ⟨hop, hb⟩ | ⟨hop, hb⟩ | ⟨hop, hb⟩ := bundleOf_controlOf_cases w
  · exact hb ▸ iff_of_true rfl (by simp [hop])
  · exact hb ▸ iff_of_true rfl (by simp [hop])
  · exact hb ▸ iff_of_true rfl (by simp [hop])
  · exact hb ▸ iff_of_false Bool.false_ne_true fun hmem =>
      Bool.false_ne_true (hop.symm.trans (isRecognisedOpcode_of_mem _ hmem))

/-- The ALU's operand is a register for OP-IMM and LOAD only. -/
theorem opcode_of_aluBSrc_reg (h : (bundleOf (controlOf w)).aluBSrc = some .reg) :
    fieldOpcode w ∈ [opcodeOpImm, opcodeLoad] := by
  obtain ⟨hop, hb⟩ | ⟨hop, hb⟩ | ⟨hop, hb⟩ | ⟨hop, hb⟩ := bundleOf_controlOf_cases w
  · simp [hop]
  · rw [hb] at h; cases h
  · simp [hop]
  · rw [hb] at h; cases h

/-- A width is given for LOAD only. -/
theorem opcode_of_ldWidth (h : (bundleOf (controlOf w)).ldWidth ≠ none) :
    fieldOpcode w = opcodeLoad := by
  obtain ⟨hop, hb⟩ | ⟨hop, hb⟩ | ⟨hop, hb⟩ | ⟨hop, hb⟩ := bundleOf_controlOf_cases w
  · rw [hb] at h; exact absurd rfl h
  · rw [hb] at h; exact absurd rfl h
  · exact hop
  · rw [hb] at h; exact absurd rfl h

/-- A load value is written back for LOAD only. -/
theorem opcode_of_wbSel_load (h : (bundleOf (controlOf w)).wbSel = some .load) :
    fieldOpcode w = opcodeLoad := by
  obtain ⟨hop, hb⟩ | ⟨hop, hb⟩ | ⟨hop, hb⟩ | ⟨hop, hb⟩ := bundleOf_controlOf_cases w
  · rw [hb] at h; cases h
  · rw [hb] at h; cases h
  · exact hop
  · rw [hb] at h; cases h

end BundleOfOpcode

end Sys2Proof.Machine
end

section
/-! PROOFS. What a tick depends on: of the data memory, the word of its data access (20_memory.md
R61); of the registers, the one at `rs1` (10_state.md R26). -/

namespace Sys2Proof.Machine

theorem eq_datapathTick_of_step {s t : State} (hstep : step s = .next t) : t = datapathTick s :=
  Host.Outcome.next.inj (hstep.symm.trans (datapathRefinesStep s))

/-! ### The data access -/

/-- A bundle that writes no load value back counts no access. -/
theorem dataAccess_eq_none {s : State} (h : (tickBundle s).wbSel ≠ some .load) :
    dataAccess s = none := by
  rw [tickBundle] at h
  unfold dataAccess
  split
  case h_1 b hb =>
    rw [hb] at h
    exact if_neg h
  all_goals rfl

/-- The access of a LOAD word with a defined width is at the ALU result (45_load.md R270). -/
theorem dataAccess_of_load {s : State} (hload : fieldOpcode s.fetchWord = opcodeLoad) :
    dataAccess s =
      (loadWidth s.fetchWord).bind fun _ => (aluResult (tickBundle s) s).map wordAddr := by
  rw [dataAccess, tickBundle, controlOf_of_load hload, controlLoad_eq_elim]
  cases loadWidth s.fetchWord <;> rfl

/-- Where a width is given, the access is at the ALU result. -/
theorem dataAccess_of_ldWidth {s : State} (h : (tickBundle s).ldWidth ≠ none) :
    dataAccess s = (aluResult (tickBundle s) s).map wordAddr := by
  have hload := opcode_of_ldWidth h
  rw [tickBundle, bundleOf_controlOf_of_load hload] at h
  obtain ⟨width, hwidth⟩ := Option.ne_none_iff_exists'.mp h
  have hwidth : loadWidth s.fetchWord = some width := hwidth
  rw [dataAccess_of_load hload, hwidth, Option.bind_some]

/-- Settles O56: the load value is all that the tick's wires read of the data memory. -/
theorem onlyLoadedWordIsConsumed : Obligations.OnlyLoadedWordIsConsumed := by
  refine ⟨fun s t m hdata hstep => ?frame, fun s => ?access⟩
  case frame =>
    have hload : loadValue (tickBundle s) { s with dmem := m } = loadValue (tickBundle s) s :=
      loadValue_congr rfl fun hwidth addr haddr =>
        hdata (wordAddr addr) (by rw [dataAccess_of_ldWidth hwidth, haddr, Option.map_some])
    have htick : datapathTick { s with dmem := m } = { datapathTick s with dmem := m } :=
      (commit_congr (s := s) (s' := { s with dmem := m }) rfl hload rfl rfl).trans
        (commitWires_withDmem ..)
    rw [datapathRefinesStep, htick, eq_datapathTick_of_step hstep]
  case access =>
    split
    case isTrue h =>
      obtain ⟨hload, hf3⟩ := h
      rw [← loadWidth_eq_none_iff] at hf3
      obtain ⟨width, hwidth⟩ := Option.ne_none_iff_exists'.mp hf3
      rw [dataAccess_of_load hload, hwidth, tickBundle, bundleOf_controlOf_of_load hload]
      exact congrArg (fun a => some (wordAddr a)) (alu_add_immI ..)
    case isFalse h =>
      by_cases hload : fieldOpcode s.fetchWord = opcodeLoad
      · have hwidth : loadWidth s.fetchWord = none :=
          (loadWidth_eq_none_iff _).mpr (not_not.mp fun hf3 => h ⟨hload, hf3⟩)
        rw [dataAccess_of_load hload, hwidth, Option.bind_none]
      · exact dataAccess_eq_none fun hsel => hload (opcode_of_wbSel_load hsel)

/-! ### The registers -/

/-- The fetch reads no register. -/
@[simp] theorem fetchWord_writeReg (s : State) (r : RegIdx) (v : Word) :
    (s.writeReg r v).fetchWord = s.fetchWord := by
  rw [State.fetchWord, writeReg_pc, State.fetchWord]
  exact instrWord_congr (writeReg_imem s r v) _

/-- Before a tick, a write to a register that the tick does not consume leaves its wires as they
are. -/
theorem datapathTick_writeReg {s : State} {r : RegIdx} (v : Word)
    (h : (tickBundle s).aluBSrc = some .reg → fieldRs1 s.fetchWord ≠ r) :
    datapathTick (s.writeReg r v) = commitWires (tickBundle s)
      (driven (wbValue (tickBundle s) s) s) (driven (aluResult (tickBundle s) s) s)
      (writesFree (tickBundle s) s) (s.writeReg r v) := by
  have hrs1 : (tickBundle s).rfRsel1 = fieldRs1 s.fetchWord := (selectorsWiredFromWord _).1
  have halu : aluResult (tickBundle s) (s.writeReg r v) = aluResult (tickBundle s) s :=
    aluResult_writeReg v (hrs1 ▸ h)
  have hload : loadValue (tickBundle s) (s.writeReg r v) = loadValue (tickBundle s) s :=
    loadValue_congr halu fun _ addr _ => dataWord_congr (writeReg_dmem s r v) (wordAddr addr)
  rw [datapathTick, tickBundle, fetchWord_writeReg]
  exact commit_congr halu hload (writeReg_pcInc s r v) (writeReg_freeCount s r v)

/-- The register a tick writes is the one of the `rd` field, unless the opcode is unrecognised or
the register is 0 (R25, R26). -/
theorem tickBundle_writes_iff {s : State} {r : RegIdx} :
    ((tickBundle s).rfWe = true ∧ (tickBundle s).rfWsel ≠ 0#5 ∧ r = (tickBundle s).rfWsel) ↔
      (r = fieldRd s.fetchWord ∧
        fieldOpcode s.fetchWord ∈ [opcodeOpImm, opcodeLoad, opcodeJal]) ∧ r ≠ 0#5 := by
  rw [tickBundle, (selectorsWiredFromWord _).2.2, rfWe_iff, ← fieldRd]
  constructor
  · rintro ⟨hop, h0, rfl⟩
    exact ⟨⟨rfl, hop⟩, h0⟩
  · rintro ⟨⟨rfl, hop⟩, h0⟩
    exact ⟨hop, h0, rfl⟩

/-- Settles O57: the same wires are committed, so what differs is the written register, unless the
tick writes it too. -/
theorem onlyRs1IsConsumed : Obligations.OnlyRs1IsConsumed := by
  intro s t r v hr hstep
  have hrs1 : (tickBundle s).aluBSrc = some .reg → fieldRs1 s.fetchWord ≠ r := fun hsrc =>
    (hr.resolve_right (not_not.mpr (opcode_of_aluBSrc_reg hsrc))).symm
  rw [eq_datapathTick_of_step hstep]
  refine ⟨_, datapathRefinesStep _, ?_⟩
  rw [datapathTick_writeReg v hrs1, datapathTick, commit_eq_commitWires]
  refine ⟨?pc, ?pcInc, ?imem, ?dmem, ?free, fun q hq => ?others, ?changed⟩
  case pc => rw [commitWires_pc, commitWires_pc, writeReg_pcInc]
  case pcInc => rw [commitWires_pcInc, commitWires_pcInc, writeReg_pcInc]
  case imem => rw [commitWires_imem, commitWires_imem, writeReg_imem]
  case dmem => rw [commitWires_dmem, commitWires_dmem, writeReg_dmem]
  case free => rw [commitWires_freeCount, commitWires_freeCount, writeReg_freeCount]
  case others =>
    have hread : (s.writeReg r v).readReg q = s.readReg q :=
      (readReg_writeReg s r q v).trans (if_neg fun h => hq h.1)
    rw [commitWires_readReg, commitWires_readReg, hread]
  case changed =>
    by_cases h0 : r = 0#5
    · rw [if_pos h0, h0, readReg_zero]
    rw [if_neg h0, commitWires_readReg, commitWires_readReg, readReg_writeReg,
      if_pos (⟨rfl, h0⟩ : r = r ∧ r ≠ 0#5)]
    split
    case isTrue h => rw [if_pos (tickBundle_writes_iff.mp h).1]
    case isFalse h => rw [if_neg fun hw => h (tickBundle_writes_iff.mpr ⟨hw, h0⟩)]

end Sys2Proof.Machine
end

section
/-! PROOFS. The statements about where a JAL goes (44_jal.md R261, R262): the target as it is, and
the jump to itself. -/

namespace Sys2Proof.Machine

/-- Settles O34: the jump takes the target and leaves the memories, and the tick after it moves on
to the `pc_inc` that the jump set. -/
theorem jalMisalignedTarget : Obligations.JalMisalignedTarget := by
  intro rd offset s t hwf hexec
  have heven : offset.getLsbD 0 = false := by simpa [Instr.wellFormed] using hwf
  obtain rfl : (s.writeReg rd s.pcInc).jumpTo (alu .add (immJ offset) s.pc) = t :=
    Host.Outcome.next.inj hexec
  rw [alu_add_immJ]
  refine ⟨rfl, getLsbD_zero_add_immJ s.pc heven, ?fetch, fun u hop hstep => ?after⟩
  case fetch => exact instrWord_congr (writeReg_imem s rd s.pcInc) _
  case after => exact (step_pc_of_not_jal hstep hop).1

/-- In a linked state a jump to `pc` itself changes nothing. -/
theorem jumpTo_pc_of_linked {s : State} (hlinked : s.Linked) : s.jumpTo s.pc = s := by
  rw [State.jumpTo, ← hlinked]

/-- Settles O35: the word is a JAL with register 0 and offset 0, so it links nothing and its target
is `pc`. -/
theorem jumpToSelfParks : Obligations.JumpToSelfParks := by
  intro s hlinked hfetch
  have hdecode : decode 0x0000006f#32 = .jal 0 0 := by decide
  have htarget : alu .add (immJ 0) s.pc = s.pc := BitVec.zero_add s.pc
  rw [Parked, step, hfetch, hdecode]
  exact congrArg Host.Outcome.next ((congrArg s.jumpTo htarget).trans (jumpTo_pc_of_linked hlinked))

end Sys2Proof.Machine
end

section
/-! PROOFS. The statements about the half and word loads (45_load.md R272, R273, R275) and about
misaligned addresses (R276): the shape of the byte loads, with a wider part of the data word. -/

namespace Sys2Proof.Machine

/-! ### The half read -/

/-- A half read is the half that bit 1 of the address selects, extended (20_memory.md R54). -/
theorem memRead_half (s : State) (addr : Word) (signed : Bool) :
    s.memRead addr .half signed = extendTo32 signed
      (if addr.getLsbD 1 = false then (s.dataWord (addr.extractLsb' 2 30)).extractLsb' 0 16
        else (s.dataWord (addr.extractLsb' 2 30)).extractLsb' 16 16) := by
  rw [← selectHalf_eq_ite]
  rfl

/-- Zero extension keeps the half's value, so an unsigned half read is in 0..0xffff. -/
theorem toNat_memRead_half_unsigned_le (s : State) (addr : Word) :
    (s.memRead addr .half false).toNat ≤ 0xffff := by
  rw [memRead_half, toNat_extendTo32_false (by decide)]
  exact Nat.le_of_lt_succ (BitVec.isLt _)

/-! ### The instructions -/

/-- Settles O37: the family's shape with the signed half read. -/
theorem lhEffect : Obligations.LhEffect := by
  intro rd rs1 imm
  refine ⟨decode_encode (i := .lh rd rs1 imm) rfl, fun s addr hlinked haddr => ?tick⟩
  case tick =>
    obtain ⟨t, hexec, heffect⟩ := load_effect_of_addr_eq hlinked haddr .half true rd
    rw [memRead_half] at heffect
    exact ⟨t, hexec, heffect⟩

/-- Settles O38: the family's shape with the word read, which is the data word itself. -/
theorem lwEffect : Obligations.LwEffect := by
  intro rd rs1 imm
  exact ⟨decode_encode (i := .lw rd rs1 imm) rfl, fun s addr hlinked haddr =>
    load_effect_of_addr_eq hlinked haddr .word true rd⟩

/-- Settles O40: the family's shape with the unsigned half read, whose range is a half's. -/
theorem lhuEffect : Obligations.LhuEffect := by
  intro rd rs1 imm
  refine ⟨decode_encode (i := .lhu rd rs1 imm) rfl, fun s addr hlinked haddr => ?tick⟩
  case tick =>
    obtain ⟨t, hexec, heffect⟩ := load_effect_of_addr_eq hlinked haddr .half false rd
    exact ⟨t, s.memRead addr .half false, hexec, memRead_half s addr false,
      toNat_memRead_half_unsigned_le s addr, heffect⟩

/-! ### Misaligned addresses -/

theorem misaligned_half_iff (addr : Word) : misaligned .half addr = true ↔ addr.toNat % 2 ≠ 0 := by
  rw [misaligned, BitVec.getLsbD, Nat.testBit_zero, decide_eq_true_iff]
  omega

theorem misaligned_word_iff (addr : Word) : misaligned .word addr = true ↔ addr.toNat % 4 ≠ 0 := by
  rw [misaligned, BitVec.getLsbD, BitVec.getLsbD, Nat.testBit_zero,
    Nat.testBit_eq_decide_div_mod_eq, Bool.or_eq_true, decide_eq_true_iff, decide_eq_true_iff]
  omega

/-- A mask of ones from bit 2 up keeps the word address. -/
theorem wordAddr_and {addr mask : Word} (hmask : mask >>> 2 = BitVec.allOnes 32 >>> 2) :
    wordAddr (addr &&& mask) = wordAddr addr := by
  apply wordAddr_eq_of_ushiftRight_eq
  rw [BitVec.ushiftRight_and_distrib, hmask, ← BitVec.ushiftRight_and_distrib,
    BitVec.and_allOnes]

/-- A half read ignores bit 0 of the address. -/
theorem memRead_half_and (s : State) (addr : Word) (signed : Bool) :
    s.memRead (addr &&& 0xfffffffe#32) .half signed = s.memRead addr .half signed := by
  have hbit : (addr &&& 0xfffffffe#32).getLsbD 1 = addr.getLsbD 1 := by
    rw [BitVec.getLsbD_and]
    exact Bool.and_true _
  rw [memRead_half, memRead_half, hbit, ← wordAddr, wordAddr_and (by decide), wordAddr]

/-- Settles O41: alignment is a remainder, the low bits do not reach the read, and the shared
operation refuses by alignment and policy alone. -/
theorem misalignedLoadPolicies : Obligations.MisalignedLoadPolicies := by
  refine ⟨fun addr => ⟨rfl, misaligned_half_iff addr, misaligned_word_iff addr⟩,
    fun s addr signed => ⟨(memRead_half_and s addr signed).symm, ?word⟩,
    fun width signed rd rs1 imm s => ⟨fun h => loadInto_refuse_misaligned h signed rd,
      fun h => loadInto_aligned h .refuse signed rd, ?runs⟩⟩
  case word => exact congrArg s.dataWord (wordAddr_and (by decide)).symm
  case runs => rw [loadInto_ignoreLowBits, effectiveAddr_eq]

end Sys2Proof.Machine
end

section
/-! PROOFS. The statements about the words that are skipped and the reserved words
(46_other_encodings.md R291 to R296). -/

namespace Sys2Proof.Machine

/-- Settles O43: none of the eight opcodes is recognised, so the tick is an advance alone. -/
theorem restOfRv32iSkipped : Obligations.RestOfRv32iSkipped := by
  intro s hlinked hop
  have hunrecognised : ∀ op ∈ [0b0001111#7, 0b1110011#7, 0b0110111#7, 0b0010111#7, 0b1100111#7,
      0b1100011#7, 0b0100011#7, 0b0110011#7], isRecognisedOpcode op = false := by decide
  exact ⟨s.advance, step_of_unrecognised (hunrecognised _ hop), hlinked ▸ noRegEffect_advance s⟩

/-- Settles O44: each pattern is the encoding of its constructor, and all six constructors have the
meaning of a reserved word. -/
theorem reservedWordsWriteFreeValue : Obligations.ReservedWordsWriteFreeValue := by
  intro rd rs1 imm shamt funct7
  refine ⟨decode_encode (i := .reservedOpImm010 rd rs1 imm) rfl,
    decode_encode (i := .reservedOpImm011 rd rs1 imm) rfl,
    decode_encode (i := .reservedLoad011 rd rs1 imm) rfl,
    decode_encode (i := .reservedLoad110 rd rs1 imm) rfl,
    decode_encode (i := .reservedLoad111 rd rs1 imm) rfl,
    fun hsrl hsra => ?shiftRightType, fun s hlinked i hi => ?tick⟩
  case shiftRightType =>
    have hwf : (Instr.reservedShiftRightType rd rs1 shamt funct7).wellFormed = true := by
      simp [Instr.wellFormed, hsrl, hsra]
    exact decode_encode hwf
  case tick =>
    have hexec : exec i s = reservedWord rd s := by
      simp only [List.mem_cons, List.not_mem_nil, or_false] at hi
      obtain rfl | rfl | rfl | rfl | rfl | rfl := hi <;> rfl
    rw [hexec]
    obtain ⟨t, hnext, hreg, hpc, hinc, hmem, hfree⟩ := reservedWord_effect rd hlinked
    exact ⟨t, hnext, hreg, hpc, hinc.trans (BitVec.add_assoc ..), hmem, hfree⟩

end Sys2Proof.Machine
end

section
/-! PROOFS. The statements about reset (70_reset_and_hazards.md R330, R331) and about the outputs of
the core (42_cpu_datapath.md R200, R206, R209). -/

namespace Sys2Proof.Machine

/-! ### Reset -/

theorem readReg_reset (r : RegIdx) : State.reset.readReg r = 0#32 := by
  unfold State.readReg
  split
  case isTrue => rfl
  case isFalse => exact Vector.getElem_replicate _

/-- Settles O58: a reset of a running core takes every register from the power-on state. -/
theorem resetState : Obligations.ResetState :=
  ⟨rfl, rfl, readReg_reset, fun _ => ⟨rfl, rfl, readReg_reset, sameMemory_of_eq rfl rfl⟩⟩

/-- Settles O59: reset puts the fetch at word 0, and `pc_inc`, which `pc` takes, at 4. -/
theorem firstTickAfterReset : Obligations.FirstTickAfterReset := by
  intro s
  have hfetch : s.assertReset.fetchWord = s.instrWord 0#30 :=
    congrArg s.instrWord (by decide : wordAddr 0#32 = 0#30)
  refine ⟨congrArg (fun w => exec (decode w) s.assertReset) hfetch, fun t hop hstep => ?pc⟩
  case pc => exact (step_pc_of_not_jal hstep (hfetch ▸ hop)).1

/-! ### The outputs of the core -/

/-- The access of a tick is at the word address on the data-memory port (R206). -/
theorem dmemAddr_of_dataAccess {s : State} {wa : WordAddr} (h : dataAccess s = some wa) :
    (outputs s).dmemAddr = some wa := by
  have hsel : (tickBundle s).wbSel = some .load := by
    by_contra hne
    rw [dataAccess_eq_none hne] at h
    cases h
  rw [dataAccess_of_load (opcode_of_wbSel_load hsel)] at h
  obtain ⟨_, -, haddr⟩ := Option.bind_eq_some_iff.mp h
  exact haddr

/-- Settles O60: the diagnostic port is a register read, which a tick's effect gives. -/
theorem coreOutputs : Obligations.CoreOutputs := by
  refine ⟨fun s => ⟨rfl, ?debug⟩, fun s t rd v target heffect => heffect.1 Config.debugReg,
    fun s wa => dmemAddr_of_dataAccess⟩
  case debug =>
    obtain ⟨-, -, -, hdebug⟩ := registerZeroReadsZero s 0#5
    exact hdebug

end Sys2Proof.Machine
end
